-- ==== Sys2Proof/Word.lean ====
section
/-! DEFINITION. The widths of the hardware (00_scope R7) and nothing else. -/

namespace Sys2Proof

/-- A register, an address or an ARM instruction word: 32 bits (00_scope R7). -/
abbrev Word := BitVec 32

/-- A Thumb instruction: 16 bits (00_scope R7). -/
abbrev Half := BitVec 16

/-- The addressable unit: 8 bits (00_scope R7). -/
abbrev Byte := BitVec 8

/-- A register index. "A model types the index as a 4-bit number" (10_state R23):
0 to 12 are general registers, 13 is `sp`, 14 is `lr`, 15 is `pc`. -/
abbrev RegIdx := BitVec 4

/-- The register index of the Thumb move-immediate, 0 to 7 (30_encoding R124). -/
abbrev LowReg := BitVec 3

end Sys2Proof
end

