-- ==== Sys2Proof/Syntax.lean ====
section
/-! DEFINITION. The instructions: one constructor per row of spec/opcode_table.json. Bits that no rule reads
(30_encoding R132) are no part of an instruction (log 33). -/

namespace Sys2Proof

/-- The two encodings (30_encoding R110). -/
inductive Isa where
  | arm
  | thumb
  deriving DecidableEq, Repr

/-- The sixteen condition codes, in the order 0x0 to 0xF (40_condition_and_step R150). -/
inductive Cond where
  | eq | ne | cs | cc | mi | pl | vs | vc | hi | ls | ge | lt | gt | le | al | nv
  deriving DecidableEq, Repr

/-- Operand 2 of data processing (30_encoding R121, R122): the rotated 8-bit immediate (`I = 1`), or the plain
register (`I = 0`, whose bits 11..4 are ignored). -/
inductive Operand2 where
  | imm (rot : BitVec 4) (imm8 : Byte)
  | reg (rm : RegIdx)
  deriving DecidableEq, Repr

/-- The offset of a single data transfer (30_encoding R117): the 12-bit immediate (`I = 1`), or the
register-offset form that acts as zero (`I = 0`, whose bits 11..0 are ignored). -/
inductive Offset where
  | imm (imm12 : BitVec 12)
  | zero
  deriving DecidableEq, Repr

/-- The `U` bit (30_encoding R116): add the offset to the base, or subtract it. -/
inductive Direction where
  | up
  | down
  deriving DecidableEq, Repr

/-- The `P` and `W` bits (30_encoding R116): pre-indexed, with write-back or without, or post-indexed, which
always writes back and does not look at `W`. -/
inductive Indexing where
  | pre (writeBack : Bool)
  | post
  deriving DecidableEq, Repr

/-- The fields of a single data transfer but for `cond`, `L` and `B` (42_arm_single_data_transfer R180). -/
structure Transfer where
  rn : RegIdx
  rd : RegIdx
  offset : Offset
  dir : Direction
  index : Indexing
  deriving DecidableEq, Repr

/-- The instructions of the hardware (00_scope R3) and the two fall-throughs. -/
inductive Instr where
  /-- ARM `B` (41_arm_branch R171). -/
  | b (c : Cond) (off24 : BitVec 24)
  /-- ARM `BL` (41_arm_branch R172). -/
  | bl (c : Cond) (off24 : BitVec 24)
  /-- ARM `LDR` (42_arm_single_data_transfer R185). -/
  | ldr (c : Cond) (x : Transfer)
  /-- ARM `LDRB` (R186). -/
  | ldrb (c : Cond) (x : Transfer)
  /-- ARM `STR` (R187). -/
  | str (c : Cond) (x : Transfer)
  /-- ARM `STRB` (R188). -/
  | strb (c : Cond) (x : Transfer)
  /-- ARM `MOV` (43_arm_data_processing R204). -/
  | mov (c : Cond) (rd : RegIdx) (op2 : Operand2)
  /-- ARM `ADD` (R205). -/
  | add (c : Cond) (rd rn : RegIdx) (op2 : Operand2)
  /-- ARM `SUB` (R206). -/
  | sub (c : Cond) (rd rn : RegIdx) (op2 : Operand2)
  /-- ARM `CMP` (R207). -/
  | cmp (c : Cond) (rn : RegIdx) (op2 : Operand2)
  /-- The ARM no-op fall-through (R209). `body` is bits 27..0 of the word, which its diagnostic event reports. -/
  | armUnhandled (c : Cond) (body : BitVec 28)
  /-- Thumb `MOV Rd, #imm8` (44_thumb R232). -/
  | tMovImm (rd : LowReg) (imm8 : Byte)
  /-- Thumb `B<cond>` (R233). -/
  | tBcond (c : Cond) (off8 : Byte)
  /-- Thumb `B` (R234). -/
  | tB (off11 : BitVec 11)
  /-- Thumb `BL`, high half (R235). -/
  | tBlHi (hi11 : BitVec 11)
  /-- Thumb `BL`, low half (R236). -/
  | tBlLo (lo11 : BitVec 11)
  /-- The Thumb no-op fall-through (R238). `h` is the half, which its diagnostic event reports. -/
  | tUnhandled (h : Half)
  deriving DecidableEq, Repr

/-- The encoding an instruction belongs to. -/
def Instr.isa : Instr → Isa
  | .b _ _ | .bl _ _ | .ldr _ _ | .ldrb _ _ | .str _ _ | .strb _ _ | .mov _ _ _ | .add _ _ _ _ | .sub _ _ _ _
  | .cmp _ _ _ | .armUnhandled _ _ => .arm
  | .tMovImm _ _ | .tBcond _ _ | .tB _ | .tBlHi _ | .tBlLo _ | .tUnhandled _ => .thumb

/-- The length of an instruction in bytes: 4 or 2, by the encoding alone (30_encoding R110). -/
def Isa.bytes : Isa → Nat
  | .arm => 4
  | .thumb => 2

end Sys2Proof
end

