-- ==== Sys2Proof/WellFormed.lean ====
section
/-! DEFINITION. When a term of `Instr` is an instruction of the hardware. Only the two fall-through rows carry
bits that could spell another row; every other term is well-formed as it stands. -/

namespace Sys2Proof

/-- `body` (bits 27..0 of a word) is class 3, data processing, and its opcode is none of the four that are
implemented (43_arm_data_processing R209): not `w[27:25] = 101`, not `w[27:26] = 01`, and `w[24:21]` not 0x2,
0x4, 0xA or 0xD. -/
def armBodyUnhandled (body : BitVec 28) : Bool :=
  body.extractLsb' 25 3 != 0b101#3
  && body.extractLsb' 26 2 != 0b01#2
  && body.extractLsb' 21 4 != 0x2#4
  && body.extractLsb' 21 4 != 0x4#4
  && body.extractLsb' 21 4 != 0xA#4
  && body.extractLsb' 21 4 != 0xD#4

/-- The selector `h[15:11]` is none of the five implemented families (44_thumb R238): not `00100`, `1101x`,
`11100`, `11110` or `11111`. -/
def thumbUnhandled (h : Half) : Bool :=
  h.extractLsb' 11 5 != 0b00100#5
  && h.extractLsb' 12 4 != 0b1101#4
  && h.extractLsb' 11 5 != 0b11100#5
  && h.extractLsb' 11 5 != 0b11110#5
  && h.extractLsb' 11 5 != 0b11111#5

/-- Well-formed instructions. -/
def Instr.wf : Instr → Bool
  | .armUnhandled _ body => armBodyUnhandled body
  | .tUnhandled h => thumbUnhandled h
  | .b _ _ | .bl _ _ | .ldr _ _ | .ldrb _ _ | .str _ _ | .strb _ _ | .mov _ _ _ | .add _ _ _ _ | .sub _ _ _ _
  | .cmp _ _ _ | .tMovImm _ _ | .tBcond _ _ | .tB _ | .tBlHi _ | .tBlLo _ => true

end Sys2Proof
end

