-- ==== Sys2Proof/Decode.lean ====
section
/-! DEFINITION. The decoder (30_encoding R112 to R134), total on every word and half, and the encoder. -/

namespace Sys2Proof

/-- The condition a 4-bit code names (40_condition_and_step R150). -/
def Cond.ofBits (k : BitVec 4) : Cond :=
  if k = 0x0#4 then .eq else if k = 0x1#4 then .ne else if k = 0x2#4 then .cs else if k = 0x3#4 then .cc
  else if k = 0x4#4 then .mi else if k = 0x5#4 then .pl else if k = 0x6#4 then .vs else if k = 0x7#4 then .vc
  else if k = 0x8#4 then .hi else if k = 0x9#4 then .ls else if k = 0xA#4 then .ge else if k = 0xB#4 then .lt
  else if k = 0xC#4 then .gt else if k = 0xD#4 then .le else if k = 0xE#4 then .al else .nv

/-- The code of a condition (40_condition_and_step R150). -/
def Cond.toBits : Cond → BitVec 4
  | .eq => 0x0#4 | .ne => 0x1#4 | .cs => 0x2#4 | .cc => 0x3#4 | .mi => 0x4#4 | .pl => 0x5#4 | .vs => 0x6#4
  | .vc => 0x7#4 | .hi => 0x8#4 | .ls => 0x9#4 | .ge => 0xA#4 | .lt => 0xB#4 | .gt => 0xC#4 | .le => 0xD#4
  | .al => 0xE#4 | .nv => 0xF#4

/-! ### ARM. `body` is bits 27..0 of the word, `w[27:0]`, so its bit numbers are the word's. -/

/-- The fields of a single data transfer (30_encoding R116, R117): `I = 1` selects the immediate; `W` is looked
at only when `P = 1`. -/
def decodeTransfer (body : BitVec 28) : Transfer where
  rn := body.extractLsb' 16 4
  rd := body.extractLsb' 12 4
  offset := if body.getLsbD 25 then .imm (body.extractLsb' 0 12) else .zero
  dir := if body.getLsbD 23 then .up else .down
  index := if body.getLsbD 24 then .pre (body.getLsbD 21) else .post

/-- Operand 2 of data processing (30_encoding R119, R121, R122). -/
def decodeOperand2 (body : BitVec 28) : Operand2 :=
  if body.getLsbD 25 then .imm (body.extractLsb' 8 4) (body.extractLsb' 0 8)
  else .reg (body.extractLsb' 0 4)

/-- The class and the instruction, from the bits below the condition (30_encoding R113, R134): branch, then
single data transfer, then, "otherwise", data processing. -/
def decodeArmBody (c : Cond) (body : BitVec 28) : Instr :=
  if body.extractLsb' 25 3 = 0b101#3 then
    if body.getLsbD 24 then .bl c (body.extractLsb' 0 24) else .b c (body.extractLsb' 0 24)
  else if body.extractLsb' 26 2 = 0b01#2 then
    if body.getLsbD 20 then
      if body.getLsbD 22 then .ldrb c (decodeTransfer body) else .ldr c (decodeTransfer body)
    else
      if body.getLsbD 22 then .strb c (decodeTransfer body) else .str c (decodeTransfer body)
  else if body.extractLsb' 21 4 = 0xD#4 then .mov c (body.extractLsb' 12 4) (decodeOperand2 body)
  else if body.extractLsb' 21 4 = 0x4#4 then
    .add c (body.extractLsb' 12 4) (body.extractLsb' 16 4) (decodeOperand2 body)
  else if body.extractLsb' 21 4 = 0x2#4 then
    .sub c (body.extractLsb' 12 4) (body.extractLsb' 16 4) (decodeOperand2 body)
  else if body.extractLsb' 21 4 = 0xA#4 then .cmp c (body.extractLsb' 16 4) (decodeOperand2 body)
  else .armUnhandled c body

/-- An ARM word (30_encoding R112): `cond = w[31:28]`, and the rest. -/
def decodeArm (w : Word) : Instr :=
  decodeArmBody (Cond.ofBits (w.extractLsb' 28 4)) (w.extractLsb' 0 28)

/-! ### Thumb -/

/-- A Thumb half (30_encoding R123 to R128): dispatch on `h[15:11]`, or on `h[15:12]` for the conditional
branch. -/
def decodeThumb (h : Half) : Instr :=
  if h.extractLsb' 11 5 = 0b00100#5 then .tMovImm (h.extractLsb' 8 3) (h.extractLsb' 0 8)
  else if h.extractLsb' 12 4 = 0b1101#4 then .tBcond (Cond.ofBits (h.extractLsb' 8 4)) (h.extractLsb' 0 8)
  else if h.extractLsb' 11 5 = 0b11100#5 then .tB (h.extractLsb' 0 11)
  else if h.extractLsb' 11 5 = 0b11110#5 then .tBlHi (h.extractLsb' 0 11)
  else if h.extractLsb' 11 5 = 0b11111#5 then .tBlLo (h.extractLsb' 0 11)
  else .tUnhandled h

/-! ### Bytes. "Both words are little-endian in memory" (30_encoding R111). -/

/-- Why bytes do not decode. No encoding is illegal (30_encoding R130), so the one reason is that there are too
few of them. -/
inductive DecodeError where
  /-- Fewer bytes than the instruction's length (`Isa.bytes`). -/
  | tooFewBytes
  deriving DecidableEq, Repr

/-- The half two bytes make, the first at the lower address (20_memory R71). -/
def halfOfBytes (b0 b1 : Byte) : Half := b1 ++ b0

/-- The word four bytes make, the first at the lowest address (20_memory R72). -/
def wordOfBytes (b0 b1 b2 b3 : Byte) : Word := (b3 ++ b2 ++ b1 ++ b0 : BitVec (8 + 8 + 8 + 8))

/-- The bytes of a half, lowest address first (20_memory R74). -/
def bytesOfHalf (h : Half) : List Byte := [h.extractLsb' 0 8, h.extractLsb' 8 8]

/-- The bytes of a word, lowest address first (20_memory R75). -/
def bytesOfWord (w : Word) : List Byte :=
  [w.extractLsb' 0 8, w.extractLsb' 8 8, w.extractLsb' 16 8, w.extractLsb' 24 8]

/-- The instruction at the front of a list of bytes, in the encoding the flag `T` selects (30_encoding R110), and
the bytes after it. -/
def decode : Isa → List Byte → Except DecodeError (Instr × List Byte)
  | .arm, b0 :: b1 :: b2 :: b3 :: rest => .ok (decodeArm (wordOfBytes b0 b1 b2 b3), rest)
  | .thumb, b0 :: b1 :: rest => .ok (decodeThumb (halfOfBytes b0 b1), rest)
  | .arm, _ => .error .tooFewBytes
  | .thumb, _ => .error .tooFewBytes

/-- The instruction this decoder reads from a row of spec/opcode_table.json: a 32-bit row is an ARM word, a
16-bit row a Thumb half, laid out little-endian. The table has no other width. -/
def decodeTableWord (nbits w : Nat) : Option Instr :=
  if nbits = 32 then
    match decode .arm (bytesOfWord (BitVec.ofNat 32 w)) with
    | .ok (i, _) => some i
    | .error _ => none
  else if nbits = 16 then
    match decode .thumb (bytesOfHalf (BitVec.ofNat 16 w)) with
    | .ok (i, _) => some i
    | .error _ => none
  else none

/-! ### The encoder, written from the same format rules. Ignored bits are written as zero (log 33). -/

/-- The single-data-transfer word (30_encoding R116) with the given `B` and `L` bits. -/
def encodeTransfer (c : Cond) (byteBit loadBit : BitVec 1) (x : Transfer) : Word :=
  let iBit : BitVec 1 := match x.offset with | .imm _ => 1#1 | .zero => 0#1
  let imm12 : BitVec 12 := match x.offset with | .imm v => v | .zero => 0#12
  let pBit : BitVec 1 := match x.index with | .pre _ => 1#1 | .post => 0#1
  let wBit : BitVec 1 := match x.index with | .pre wb => BitVec.ofBool wb | .post => 0#1
  let uBit : BitVec 1 := match x.dir with | .up => 1#1 | .down => 0#1
  (c.toBits ++ 0b01#2 ++ iBit ++ pBit ++ uBit ++ byteBit ++ wBit ++ loadBit ++ x.rn ++ x.rd ++ imm12 :
    BitVec (4 + 2 + 1 + 1 + 1 + 1 + 1 + 1 + 4 + 4 + 12))

/-- The `I` bit and bits 11..0 of data processing (30_encoding R119). -/
def encodeOperand2 : Operand2 → BitVec 1 × BitVec 12
  | .imm rot imm8 => (1#1, rot ++ imm8)
  | .reg rm => (0#1, 0#8 ++ rm)

/-- The data-processing word (30_encoding R119): bits 27..26 zero, `S` zero. -/
def encodeDataProcessing (c : Cond) (opcode rn rd : BitVec 4) (o : Operand2) : Word :=
  (c.toBits ++ 0b00#2 ++ (encodeOperand2 o).1 ++ opcode ++ 0#1 ++ rn ++ rd ++ (encodeOperand2 o).2 :
    BitVec (4 + 2 + 1 + 4 + 1 + 4 + 4 + 12))

/-- The branch word (30_encoding R114) with the given link bit. -/
def encodeBranch (c : Cond) (link : BitVec 1) (off24 : BitVec 24) : Word :=
  (c.toBits ++ 0b101#3 ++ link ++ off24 : BitVec (4 + 3 + 1 + 24))

/-- The bytes of an instruction, lowest address first. -/
def encode : Instr → List Byte
  | .b c off => bytesOfWord (encodeBranch c 0#1 off)
  | .bl c off => bytesOfWord (encodeBranch c 1#1 off)
  | .ldr c x => bytesOfWord (encodeTransfer c 0#1 1#1 x)
  | .ldrb c x => bytesOfWord (encodeTransfer c 1#1 1#1 x)
  | .str c x => bytesOfWord (encodeTransfer c 0#1 0#1 x)
  | .strb c x => bytesOfWord (encodeTransfer c 1#1 0#1 x)
  | .mov c rd o => bytesOfWord (encodeDataProcessing c 0xD#4 0#4 rd o)
  | .add c rd rn o => bytesOfWord (encodeDataProcessing c 0x4#4 rn rd o)
  | .sub c rd rn o => bytesOfWord (encodeDataProcessing c 0x2#4 rn rd o)
  | .cmp c rn o => bytesOfWord (encodeDataProcessing c 0xA#4 rn 0#4 o)
  | .armUnhandled c body => bytesOfWord (c.toBits ++ body : BitVec (4 + 28))
  | .tMovImm rd imm8 => bytesOfHalf (0b00100#5 ++ rd ++ imm8 : BitVec (5 + 3 + 8))
  | .tBcond c off8 => bytesOfHalf (0b1101#4 ++ c.toBits ++ off8 : BitVec (4 + 4 + 8))
  | .tB off11 => bytesOfHalf (0b11100#5 ++ off11 : BitVec (5 + 11))
  | .tBlHi hi11 => bytesOfHalf (0b11110#5 ++ hi11 : BitVec (5 + 11))
  | .tBlLo lo11 => bytesOfHalf (0b11111#5 ++ lo11 : BitVec (5 + 11))
  | .tUnhandled h => bytesOfHalf h

end Sys2Proof
end

