-- ==== Sys2Proof/Machine/AddressMap.lean ====
section
/-! DEFINITION. The address map (20_memory R62 to R69): the region an address dispatches to, and the backing byte
it reaches. A backing byte has a KEY, a Nat: the region's base plus the in-region offset. Keys name storage; two
addresses that mirror each other share one key. -/

namespace Sys2Proof.Machine

/-- The regions of the address map, and `unmapped` for the default row (20_memory R62, R64). -/
inductive Region where
  | boot | ewram | iwram | vram | palette | oam | cart | io | unmapped
  deriving DecidableEq, Repr

/-- A row of the dispatch table: the window of addresses, first and last (20_memory R63, R64). -/
structure RegionRow where
  region : Region
  first : Nat
  last : Nat
  deriving DecidableEq, Repr

/-- The dispatch table in its priority order (20_memory R62, R64). -/
def regionTable : List RegionRow :=
  [ ⟨.boot,    0x00000000, 0x00FFFFFF⟩,
    ⟨.ewram,   0x02000000, 0x02FFFFFF⟩,
    ⟨.iwram,   0x03000000, 0x03FFFFFF⟩,
    ⟨.vram,    0x06000000, 0x06FFFFFF⟩,
    ⟨.palette, 0x05000000, 0x05FFFFFF⟩,
    ⟨.oam,     0x07000000, 0x07FFFFFF⟩,
    ⟨.cart,    0x08000000, 0x09FFFFFF⟩,
    ⟨.io,      0x04000000, 0x040003FF⟩ ]

/-- "A byte address is looked up in that order and the first region whose window contains it handles the byte;
an address in no window falls to `default`" (20_memory R62). -/
def regionOf (a : Word) : Region :=
  match regionTable.find? (fun row => decide (row.first ≤ a.toNat) && decide (a.toNat ≤ row.last)) with
  | some row => row.region
  | none => .unmapped

/-- The base of a region (20_memory R64); nothing for the default row. -/
def Region.base : Region → Nat
  | .boot => 0x00000000
  | .ewram => 0x02000000
  | .iwram => 0x03000000
  | .vram => 0x06000000
  | .palette => 0x05000000
  | .oam => 0x07000000
  | .cart => 0x08000000
  | .io => 0x04000000
  | .unmapped => 0

/-- The mask of a masked region (20_memory R64). The cartridge and the I/O window have none, so their mask keeps
every bit. -/
def Region.mask : Region → Word
  | .boot => 0x00003FFF#32
  | .ewram => 0x0003FFFF#32
  | .iwram => 0x00007FFF#32
  | .vram => 0x0001FFFF#32
  | .palette => 0x000003FF#32
  | .oam => 0x000003FF#32
  | .cart => 0xFFFFFFFF#32
  | .io => 0xFFFFFFFF#32
  | .unmapped => 0xFFFFFFFF#32

/-- The number of bytes of video RAM, fewer than its 17-bit mask spans (20_memory R68). -/
def vramSize : Nat := 0x18000

/-- The in-region offset (20_memory R65): `a & mask` for the six masked regions, `a - base` for the cartridge,
which has no mask. -/
def regionOffset (a : Word) : Nat :=
  match regionOf a with
  | .cart => a.toNat - 0x08000000
  | r => (a &&& r.mask).toNat

/-- The base of an address's region plus its offset: the key of the backing byte, where there is one. -/
def byteKey (a : Word) : Nat := (regionOf a).base + regionOffset a

/-- The key of the backing byte an address reaches: none for the I/O window (10_state R37), for unmapped
addresses, and for the video RAM offsets past the end of the buffer (20_memory R68). For the cartridge the key
exists whatever the image's length; whether the image reaches it is `State.byteAt`'s question (20_memory R69). -/
def backingKey (a : Word) : Option Nat :=
  match regionOf a with
  | .io => none
  | .unmapped => none
  | .vram => if regionOffset a < vramSize then some (byteKey a) else none
  | .boot | .ewram | .iwram | .palette | .oam | .cart => some (byteKey a)

end Sys2Proof.Machine
end

