-- ==== Sys2Proof/Machine/Flags.lean ====
section
/-! DEFINITION. The flags word (10_state R29 to R33) and the condition evaluator (40_condition_and_step R150). -/

namespace Sys2Proof.Machine

/-- `N = flags[31]` (10_state R29). -/
def flagN (flags : Word) : Bool := flags.getLsbD 31

/-- `Z = flags[30]` (10_state R29). -/
def flagZ (flags : Word) : Bool := flags.getLsbD 30

/-- `C = flags[29]` (10_state R29). -/
def flagC (flags : Word) : Bool := flags.getLsbD 29

/-- `V = flags[28]` (10_state R29). -/
def flagV (flags : Word) : Bool := flags.getLsbD 28

/-- `T = flags[5]`: false selects ARM, true selects Thumb (10_state R31). -/
def flagT (flags : Word) : Bool := flags.getLsbD 5

/-- The flags word with N, Z, C, V replaced "in full (clear-then-set)" and bits 27..0 kept (10_state R33,
43_arm_data_processing R207). -/
def setNZCV (flags : Word) (n z c v : Bool) : Word :=
  (BitVec.ofBool n ++ BitVec.ofBool z ++ BitVec.ofBool c ++ BitVec.ofBool v ++ flags.extractLsb' 0 28 :
    BitVec (1 + 1 + 1 + 1 + 28))

/-- The flags word with `T` replaced: no instruction does this (10_state R31), a host may (70_reset R306). -/
def setT (flags : Word) (t : Bool) : Word :=
  (flags.extractLsb' 6 26 ++ BitVec.ofBool t ++ flags.extractLsb' 0 5 : BitVec (26 + 1 + 5))

/-- The flags word after comparing `a` with `op2` (43_arm_data_processing R207): N and Z from `a - op2`, C set
exactly when `a >=u op2`, V always 0. -/
def compareFlags (flags a op2 : Word) : Word :=
  setNZCV flags ((a - op2).getLsbD 31) (a - op2 == 0#32) (decide (op2.toNat ≤ a.toNat)) false

/-- `CondPassed(cond)` (40_condition_and_step R150). -/
def condPassed (c : Cond) (flags : Word) : Bool :=
  match c with
  | .eq => flagZ flags
  | .ne => !flagZ flags
  | .cs => flagC flags
  | .cc => !flagC flags
  | .mi => flagN flags
  | .pl => !flagN flags
  | .vs => flagV flags
  | .vc => !flagV flags
  | .hi => flagC flags && !flagZ flags
  | .ls => !flagC flags || flagZ flags
  | .ge => flagN flags == flagV flags
  | .lt => flagN flags != flagV flags
  | .gt => !flagZ flags && flagN flags == flagV flags
  | .le => flagZ flags || flagN flags != flagV flags
  | .al => true
  | .nv => false

end Sys2Proof.Machine
end

