-- ==== Sys2Proof/Config.lean ====
section
/-! DEFINITION. What an implementation fixes: the ten open parameters of 00_scope R8, as one structure.
Their default values are `launchDefaults` in Machine/Launch.lean. -/

namespace Sys2Proof

/-- The ten open parameters (00_scope R8). The core's initial state is "a function of the ten parameters"
(70_reset R290). -/
structure LaunchParams where
  /-- `RESET_PC`. -/
  resetPc : Word
  /-- `RESET_SP`. -/
  resetSp : Word
  /-- `RESET_FLAGS`. -/
  resetFlags : Word
  /-- `RESET_GPR`. -/
  resetGpr : Vector Word 13
  /-- `RESET_LR`. -/
  resetLr : Word
  /-- `RESET_SAVED_FLAGS`. -/
  resetSavedFlags : Vector Word 5
  /-- `CART_IMAGE`: a byte string of any length. -/
  cartImage : List Byte
  /-- `BOOT_IMAGE`: the first bytes of the 16384; every byte past the end of the list is 0x00, and bytes past
  the 16384th are dropped (log 13). -/
  bootImage : List Byte
  /-- `BOOT_ROM_WRITABLE`. -/
  bootRomWritable : Bool
  /-- `IO_READ_BYTE`. -/
  ioReadByte : Byte
  deriving DecidableEq, Repr

end Sys2Proof
end

