-- ==== Sys2Proof/Machine/Memory.lean ====
section
/-! DEFINITION. Storage: the backing bytes of the whole address space, as a list of (key, byte) in one canonical
form. The keys are those of Machine/AddressMap.lean. -/

namespace Sys2Proof.Machine

/-- The stored bytes, keys strictly rising, none equal to what an unlisted key reads as (`Memory.wf`). -/
abbrev Memory := List Host.Cell

/-- What an unlisted key reads as. Boot ROM and the five RAMs are "zero-initialized at construction" (10_state
R42); a cartridge byte that the image does not hold is the sentinel 0xFF (20_memory R69). Log 31. -/
def unlistedByte (k : Nat) : Byte := if k < 0x08000000 then 0x00#8 else 0xFF#8

/-- The byte at a key. -/
def Memory.get : Memory → Nat → Byte
  | [], k => unlistedByte k
  | (k', b) :: rest, k => if k = k' then b else Memory.get rest k

/-- Insert a cell before the first cell with a larger key. -/
def Memory.insertCell : Memory → Nat → Byte → Memory
  | [], k, b => [(k, b)]
  | (k', b') :: rest, k, b => if k < k' then (k, b) :: (k', b') :: rest else (k', b') :: Memory.insertCell rest k b

/-- The memory with a key no longer listed. -/
def Memory.erase (m : Memory) (k : Nat) : Memory := m.filter (fun cell => cell.1 != k)

/-- The memory with the byte at a key changed. Writing what an unlisted key reads as removes the cell. -/
def Memory.set (m : Memory) (k : Nat) (b : Byte) : Memory :=
  if b = unlistedByte k then m.erase k else (m.erase k).insertCell k b

/-- Consecutive bytes stored from a key on. -/
def Memory.setList : Memory → Nat → List Byte → Memory
  | m, _, [] => m
  | m, k, b :: rest => Memory.setList (m.set k b) (k + 1) rest

/-- Keys strictly rising. -/
def Memory.sorted : Memory → Bool
  | [] => true
  | [_] => true
  | (k, _) :: (k', b') :: rest => decide (k < k') && Memory.sorted ((k', b') :: rest)

/-- The canonical form: keys strictly rising, and no cell equal to what its key reads as when unlisted. -/
def Memory.wf (m : Memory) : Bool := m.sorted && m.all (fun cell => cell.2 != unlistedByte cell.1)

end Sys2Proof.Machine
end

