-- ==== Sys2Proof/Machine/Launch.lean ====
section
/-! DEFINITION. The defaults of the ten parameters (00_scope R8) and the memory at reset (10_state R42). -/

namespace Sys2Proof.Machine

/-- The spec's defaults (00_scope R8, 10_state R41, R42). Log 1, 2, 3, 4, 11, 13, 30. -/
def launchDefaults : LaunchParams where
  resetPc := 0x08000000#32
  resetSp := 0x03007F00#32
  resetFlags := 0x0000001F#32
  resetGpr := Vector.replicate 13 0x00000000#32
  resetLr := 0x00000000#32
  resetSavedFlags := Vector.replicate 5 0x00000000#32
  cartImage := []
  bootImage := []
  bootRomWritable := false
  ioReadByte := 0x00#8

/-- Memory at reset (10_state R42): every RAM byte 0x00, `boot` is `BOOT_IMAGE`, `cart` is `CART_IMAGE`. -/
def resetMemory (p : LaunchParams) : Memory :=
  Memory.setList (Memory.setList [] 0x00000000 (p.bootImage.take 0x4000)) 0x08000000 p.cartImage

end Sys2Proof.Machine
end

