-- ==== Sys2Proof/Machine/State.lean ====
section
/-! DEFINITION. The state of the core (10_state section 1), the reasons a step can stop, and the state after
reset. -/

namespace Sys2Proof.Machine

/-- The events of the diagnostic hook (10_state R40). -/
inductive DiagEvent where
  /-- A byte read whose address is in no window (20_memory R79). -/
  | unmappedRead (a : Word)
  /-- A byte write whose address is in no window, with the discarded byte (20_memory R80). -/
  | unmappedWrite (a : Word) (b : Byte)
  /-- `Unimplemented(ARM, w, A)` (43_arm_data_processing R209). -/
  | unimplementedArm (w : Word) (a : Word)
  /-- `Unimplemented(Thumb, h, A)` (44_thumb R238). -/
  | unimplementedThumb (h : Half) (a : Word)
  deriving DecidableEq, Repr

/-- The state of the core: "exactly this, and nothing else" (10_state section 1), with the two parameters of
00_scope R8 that the step reads and nothing writes. -/
structure State where
  /-- `r0` to `r12` (10_state R21). -/
  r : Vector Word 13
  /-- The stack-pointer slot, index 13 (R22). -/
  sp : Word
  /-- The link-register slot, index 14 (R22). -/
  lr : Word
  /-- The raw program-counter slot, index 15 (R26). -/
  pc : Word
  /-- The flags word: N, Z, C, V in bits 31..28, `T` in bit 5, the mode field in bits 4..0 (R29 to R32). -/
  flags : Word
  /-- The five saved-flags slots, inert (R34). -/
  savedFlags : Vector Word 5
  /-- The bytes of `boot`, `ewram`, `iwram`, `palette`, `vram`, `oam` and `cart` (R35, R36), by backing key. -/
  mem : Memory
  /-- The length `L` of the cartridge image (R36). -/
  cartLen : Nat
  /-- The diagnostic log, oldest event first (R40). -/
  diagLog : List DiagEvent
  /-- `BOOT_ROM_WRITABLE` (00_scope R8, 20_memory R66). -/
  bootRomWritable : Bool
  /-- `IO_READ_BYTE` (00_scope R8, 20_memory R78). -/
  ioReadByte : Byte
  deriving DecidableEq, Repr

/-- The reasons the machine stops with a fault. There is none: "The core raises no exception of any kind"
(60_exceptions R260), and no behaviour of this hardware is a fault or a stuck state (93 section 1). Safe: no
step can end so. -/
inductive Fault where
  deriving DecidableEq, Repr

/-- The reasons a step has no meaning. -/
inductive Refusal where
  /-- Raised by an arm of `exec` whose instruction has no meaning yet; none is. Safe: the run stops. -/
  | notModelled (mnemonic : String)
  deriving DecidableEq, Repr

/-- "A model's initial state is exactly that, as a function of the ten parameters" (70_reset R290; values 10_state
R41, R42). -/
def State.resetWith (p : LaunchParams) : State where
  r := p.resetGpr
  sp := p.resetSp
  lr := p.resetLr
  pc := p.resetPc
  flags := p.resetFlags
  savedFlags := p.resetSavedFlags
  mem := resetMemory p
  cartLen := p.cartImage.length
  diagLog := []
  bootRomWritable := p.bootRomWritable
  ioReadByte := p.ioReadByte

/-- The machine right after reset, with the spec's default parameters. -/
def State.reset : State := State.resetWith launchDefaults

end Sys2Proof.Machine
end

