-- ==== Sys2Proof/Machine/Ops.lean ====
section
/-! DEFINITION. The named operations over registers and memory, fetching, predication, and what the host may do.
TAKING AN EXCEPTION AND RETURNING FROM ONE have no operation here: "There is no trap entry" (60_exceptions R265)
and "no trap return instruction" (R266). -/

namespace Sys2Proof.Machine

/-! ### Registers -/

/-- Operand read `x[i]` (10_state R24): index 15 reads as the raw slot plus 8, modulo 2^32. -/
def State.readReg (s : State) (i : RegIdx) : Word :=
  if h : i.toNat < 13 then s.r[i.toNat]
  else if i = 13#4 then s.sp
  else if i = 14#4 then s.lr
  else s.pc + 8#32

/-- Register write `x[i] <- v` (10_state R25): index 15 stores `v & 0xFFFFFFFC`, every other index `v`. -/
def State.writeReg (s : State) (i : RegIdx) (v : Word) : State :=
  if h : i.toNat < 13 then { s with r := s.r.set i.toNat v }
  else if i = 13#4 then { s with sp := v }
  else if i = 14#4 then { s with lr := v }
  else { s with pc := v &&& 0xFFFFFFFC#32 }

/-- The raw write `pc <- v`, not masked (10_state R27 a). -/
def State.setPc (s : State) (v : Word) : State := { s with pc := v }

/-- A write of the link-register slot (10_state R22). -/
def State.setLr (s : State) (v : Word) : State := { s with lr := v }

/-- `diag(event)` (10_state R40). -/
def State.report (s : State) (e : DiagEvent) : State := { s with diagLog := s.diagLog ++ [e] }

/-! ### The bus, one byte -/

/-- The byte `ByteRead(a)` answers (20_memory R66 to R69, R78, R79). -/
def State.byteAt (s : State) (a : Word) : Byte :=
  match regionOf a with
  | .io => s.ioReadByte
  | .unmapped => 0xFF#8
  | .cart => if regionOffset a < s.cartLen then s.mem.get (byteKey a) else 0xFF#8
  | .vram => if regionOffset a < vramSize then s.mem.get (byteKey a) else 0xFF#8
  | .boot | .ewram | .iwram | .palette | .oam => s.mem.get (byteKey a)

/-- The events a byte read raises: one, when the address is unmapped (20_memory R79). -/
def readEvents (a : Word) : List DiagEvent :=
  if regionOf a = .unmapped then [.unmappedRead a] else []

/-- `ByteRead(a)`: the byte, and the state with the read's event reported. -/
def State.readByte (s : State) (a : Word) : Byte × State :=
  (s.byteAt a, { s with diagLog := s.diagLog ++ readEvents a })

/-- Whether a bus write of the byte at `a` changes its backing byte (20_memory R64, R66 to R69). -/
def State.writable (s : State) (a : Word) : Bool :=
  match regionOf a with
  | .boot => s.bootRomWritable
  | .ewram | .iwram | .palette | .oam => true
  | .vram => decide (regionOffset a < vramSize)
  | .cart | .io | .unmapped => false

/-- The state with the byte at a backing key changed. -/
def State.poke (s : State) (k : Nat) (b : Byte) : State := { s with mem := s.mem.set k b }

/-- The events a byte write raises: one, when the address is unmapped (20_memory R80). -/
def writeEvents (a : Word) (b : Byte) : List DiagEvent :=
  if regionOf a = .unmapped then [.unmappedWrite a b] else []

/-- `ByteWrite(a, b)` (20_memory R66 to R69, R78, R80): a writable byte is stored; a write to boot ROM (unless
`BOOT_ROM_WRITABLE`), the cartridge, the I/O window or the uncovered video RAM offsets is dropped without an
event; an unmapped write is dropped and reported. -/
def State.writeByte (s : State) (a : Word) (b : Byte) : State :=
  if s.writable a then s.poke (byteKey a) b
  else { s with diagLog := s.diagLog ++ writeEvents a b }

/-! ### The bus, halves and words: sequences of byte operations in ascending address order (20_memory R61) -/

/-- `readHalf` (20_memory R71, R76). -/
def State.readHalf (s : State) (a : Word) : Half × State :=
  let (b0, s) := s.readByte a
  let (b1, s) := s.readByte (a + 1#32)
  (halfOfBytes b0 b1, s)

/-- `readWord` (20_memory R72, R76). -/
def State.readWord (s : State) (a : Word) : Word × State :=
  let (b0, s) := s.readByte a
  let (b1, s) := s.readByte (a + 1#32)
  let (b2, s) := s.readByte (a + 2#32)
  let (b3, s) := s.readByte (a + 3#32)
  (wordOfBytes b0 b1 b2 b3, s)

/-- `writeHalf` (20_memory R74, R76). No instruction uses it; "the operation exists on the bus". -/
def State.writeHalf (s : State) (a : Word) (v : Half) : State :=
  let s := s.writeByte a (v.extractLsb' 0 8)
  s.writeByte (a + 1#32) (v.extractLsb' 8 8)

/-- `writeWord` (20_memory R75, R76). -/
def State.writeWord (s : State) (a : Word) (v : Word) : State :=
  let s := s.writeByte a (v.extractLsb' 0 8)
  let s := s.writeByte (a + 1#32) (v.extractLsb' 8 8)
  let s := s.writeByte (a + 2#32) (v.extractLsb' 16 8)
  s.writeByte (a + 3#32) (v.extractLsb' 24 8)

/-! ### Predication and fetching -/

/-- The end of a step in a next state. -/
abbrev Result := Host.Outcome State Fault Refusal

/-- ARM predication (40_condition_and_step R156): the effect if the condition passes on the flags as they stand,
else "a complete no-op". -/
def State.predicated (s : State) (c : Cond) (effect : State → State) : Result :=
  if condPassed c s.flags then .next (effect s) else .next s

/-- The fetch and the advance (40_condition_and_step R155): 4 bytes at `pc` and `pc <- A + 4` when `T = 0`, 2 bytes
and `pc <- A + 2` when `T = 1`; the advance is raw. The instruction is what the decoder reads. -/
def State.fetch (s : State) : Instr × State :=
  if flagT s.flags then
    let (h, s') := s.readHalf s.pc
    (decodeThumb h, s'.setPc (s.pc + 2#32))
  else
    let (w, s') := s.readWord s.pc
    (decodeArm w, s'.setPc (s.pc + 4#32))

/-- During an ARM instruction, the address `A` it was fetched from: the raw slot is `A + 4` (00_scope R13). -/
def State.armAddress (s : State) : Word := s.pc - 4#32

/-- During a Thumb instruction, the address `A` it was fetched from: the raw slot is `A + 2` (00_scope R13). -/
def State.thumbAddress (s : State) : Word := s.pc - 2#32

/-! ### What the host may do between steps (70_reset R300, R305, R306) -/

/-- Load a cartridge image, which "replaces the owned image buffer wholesale" (70_reset R300); `none` is a failed
load, which changes nothing (60_exceptions R274). -/
def State.hostLoadCart (s : State) : Option (List Byte) → State
  | none => s
  | some image =>
    { s with
      mem := Memory.setList (s.mem.filter (fun cell => decide (cell.1 < 0x08000000))) 0x08000000 image
      cartLen := image.length }

/-- The state with the backing byte that an address reaches set from outside, in ROM too; a byte placed in the
cartridge window beyond the image makes the image longer, the bytes between being 0xFF as they read before. An
address with no backing byte is left alone. -/
def State.hostPlaceByte (s : State) (a : Word) (b : Byte) : State :=
  match backingKey a with
  | none => s
  | some k =>
    { s with
      mem := s.mem.set k b
      cartLen := if regionOf a = .cart then max s.cartLen (regionOffset a + 1) else s.cartLen }

/-- Bytes placed from an address on. -/
def State.hostPlaceBytes (s : State) (a : Word) : List Byte → State
  | [] => s
  | b :: rest => State.hostPlaceBytes (s.hostPlaceByte a b) (a + 1#32) rest

/-- Whether `n` bytes from an address on all have a backing byte. -/
def allBacked (a : Word) : Nat → Bool
  | 0 => true
  | n + 1 => (backingKey a).isSome && allBacked (a + 1#32) n

/-- An instruction's bytes placed where the next fetch reads them, in the encoding the fetch then uses. Where `pc`
points at bytes that no storage backs, `pc` is first set to the cartridge base (log 32). -/
def State.hostPlaceInstr (s : State) (isa : Isa) (bytes : List Byte) : State :=
  let at_ := if allBacked s.pc bytes.length then s.pc else 0x08000000#32
  State.hostPlaceBytes { s with pc := at_, flags := setT s.flags (isa == .thumb) } at_ bytes

/-- `hostPlaceInstr` for a row of spec/opcode_table.json: a 16-bit row is Thumb, any other ARM. -/
def State.hostPlaceWord (s : State) (nbits w : Nat) : State :=
  if nbits = 16 then s.hostPlaceInstr .thumb (bytesOfHalf (BitVec.ofNat 16 w))
  else s.hostPlaceInstr .arm (bytesOfWord (BitVec.ofNat 32 w))

end Sys2Proof.Machine
end

