-- ==== Sys2Proof/Machine/Operands.lean ====
section
/-! DEFINITION. Operand forms: immediates, operand 2, transfer addresses, branch targets. -/

namespace Sys2Proof.Machine

/-- `ror32(v, n)` for `n` from 0 to 31 (00_scope R10). -/
def ror32 (v : Word) (n : Nat) : Word := (v >>> n) ||| (v <<< (32 - n))

/-- The rotated immediate (30_encoding R121): `ror32(zext_32(imm8), 2 * rot)`. -/
def rotatedImmediate (rot : BitVec 4) (imm8 : Byte) : Word := ror32 (imm8.setWidth 32) (2 * rot.toNat)

/-- Operand 2 (43_arm_data_processing R201). -/
def State.operand2 (s : State) : Operand2 → Word
  | .imm rot imm8 => rotatedImmediate rot imm8
  | .reg rm => s.readReg rm

/-- The offset of a single data transfer (30_encoding R117). -/
def Offset.value : Offset → Word
  | .imm imm12 => imm12.setWidth 32
  | .zero => 0#32

/-- `upd` (42_arm_single_data_transfer R181): the base plus or minus the offset, modulo 2^32. -/
def State.transferUpd (s : State) (x : Transfer) : Word :=
  match x.dir with
  | .up => s.readReg x.rn + Offset.value x.offset
  | .down => s.readReg x.rn - Offset.value x.offset

/-- `addr` (42_arm_single_data_transfer R181): `upd` when pre-indexed, the base when post-indexed. -/
def State.transferAddr (s : State) (x : Transfer) : Word :=
  match x.index with
  | .pre _ => s.transferUpd x
  | .post => s.readReg x.rn

/-- Whether the base is written back (42_arm_single_data_transfer R182). -/
def Indexing.writesBack : Indexing → Bool
  | .pre wb => wb
  | .post => true

/-- The write-back, an indexed write (42_arm_single_data_transfer R182). -/
def State.writeBack (s : State) (x : Transfer) (upd : Word) : State :=
  if Indexing.writesBack x.index then s.writeReg x.rn upd else s

/-- The ARM branch offset (30_encoding R115). -/
def armBranchOffset (off24 : BitVec 24) : Word := off24.signExtend 32 <<< 2

/-- The ARM branch target (41_arm_branch R170): the raw slot plus the offset, modulo 2^32. -/
def State.armTarget (s : State) (off24 : BitVec 24) : Word := s.pc + armBranchOffset off24

/-- The Thumb conditional-branch offset (30_encoding R125). -/
def thumbCondOffset (off8 : Byte) : Word := off8.signExtend 32 <<< 1

/-- The Thumb unconditional-branch offset (30_encoding R126). -/
def thumbBranchOffset (off11 : BitVec 11) : Word := off11.signExtend 32 <<< 1

/-- The Thumb long-branch high part (30_encoding R127): `sext_32(hi11 << 12, 23)`. -/
def thumbHighOffset (hi11 : BitVec 11) : Word := (hi11 ++ 0#12 : BitVec (11 + 12)).signExtend 32

/-- The Thumb long-branch low part (30_encoding R128): `zext_32(lo11) << 1`. -/
def thumbLowOffset (lo11 : BitVec 11) : Word := lo11.setWidth 32 <<< 1

end Sys2Proof.Machine
end

