-- ==== Sys2Proof/Machine/Branch.lean ====
section
/-! DEFINITION. The ARM branch family (41_arm_branch). The state is that after the fetch and the advance: `pc` is
the raw slot, `A + 4`. -/

namespace Sys2Proof.Machine

/-- The effect of B (R171). -/
def State.branchArm (s : State) (off24 : BitVec 24) : State := s.setPc (s.armTarget off24)

/-- B (R171). -/
def execB (c : Cond) (off24 : BitVec 24) (s : State) : Result :=
  s.predicated c (fun s => s.branchArm off24)

/-- BL (R172): `lr` receives the raw slot, then the branch, which does not read `lr`. -/
def execBl (c : Cond) (off24 : BitVec 24) (s : State) : Result :=
  s.predicated c (fun s => (s.setLr s.pc).branchArm off24)

end Sys2Proof.Machine
end

