-- ==== Sys2Proof/Machine/DataProcessing.lean ====
section
/-! DEFINITION. ARM data processing (43_arm_data_processing). No bit but the condition decides whether flags are
written: MOV, ADD and SUB never write them, CMP always does (R203). -/

namespace Sys2Proof.Machine

/-- MOV (R204). -/
def execMov (c : Cond) (rd : RegIdx) (op2 : Operand2) (s : State) : Result :=
  s.predicated c fun s => s.writeReg rd (s.operand2 op2)

/-- ADD (R205). -/
def execAdd (c : Cond) (rd rn : RegIdx) (op2 : Operand2) (s : State) : Result :=
  s.predicated c fun s => s.writeReg rd (s.readReg rn + s.operand2 op2)

/-- SUB (R206): `Rn` minus operand 2. -/
def execSub (c : Cond) (rd rn : RegIdx) (op2 : Operand2) (s : State) : Result :=
  s.predicated c fun s => s.writeReg rd (s.readReg rn - s.operand2 op2)

/-- CMP (R207): no register is written. -/
def execCmp (c : Cond) (rn : RegIdx) (op2 : Operand2) (s : State) : Result :=
  s.predicated c fun s => { s with flags := compareFlags s.flags (s.readReg rn) (s.operand2 op2) }

/-- The ARM no-op fall-through (R209): the event `Unimplemented(ARM, w, A)` and nothing else; none when the
condition fails (40_condition_and_step R156). -/
def execArmUnhandled (c : Cond) (body : BitVec 28) (s : State) : Result :=
  s.predicated c fun s => s.report (.unimplementedArm (c.toBits ++ body : BitVec (4 + 28)) s.armAddress)

end Sys2Proof.Machine
end

