-- ==== Sys2Proof/Machine/Thumb.lean ====
section
/-! DEFINITION. The Thumb instructions (44_thumb). The state is that after the fetch and the advance: `pc` is the
raw slot, `A + 2`. Only B<cond> looks at a condition (40_condition_and_step R157). -/

namespace Sys2Proof.Machine

/-- MOV Rd, #imm8 (R232): `Rd` is `r0` to `r7`; no flag is written. -/
def execTMovImm (rd : LowReg) (imm8 : Byte) (s : State) : Result :=
  .next (s.writeReg (rd.setWidth 4) (imm8.setWidth 32))

/-- B<cond> (R233). -/
def execTBcond (c : Cond) (off8 : Byte) (s : State) : Result :=
  s.predicated c fun s => s.setPc (s.pc + thumbCondOffset off8)

/-- B (R234). -/
def execTB (off11 : BitVec 11) (s : State) : Result :=
  .next (s.setPc (s.pc + thumbBranchOffset off11))

/-- BL, high half (R235): the partial target is staged in `lr`. -/
def execTBlHi (hi11 : BitVec 11) (s : State) : Result :=
  .next (s.setLr (s.pc + thumbHighOffset hi11))

/-- BL, low half (R236): the target from the old `lr`, then `lr` the return address with bit 0 set, then `pc`. -/
def execTBlLo (lo11 : BitVec 11) (s : State) : Result :=
  let target := s.lr + thumbLowOffset lo11
  .next ((s.setLr (s.pc ||| 1#32)).setPc target)

/-- The Thumb no-op fall-through (R238): the event `Unimplemented(Thumb, h, A)` and nothing else. -/
def execTUnhandled (h : Half) (s : State) : Result :=
  .next (s.report (.unimplementedThumb h s.thumbAddress))

end Sys2Proof.Machine
end

