-- ==== Sys2Proof/Machine/Transfer.lean ====
section
/-! DEFINITION. The ARM single data transfers (42_arm_single_data_transfer R183): all register reads first, one
data access, for a load the destination, and the write-back last. -/

namespace Sys2Proof.Machine

/-- LDR (R185). -/
def execLdr (c : Cond) (x : Transfer) (s : State) : Result :=
  s.predicated c fun s =>
    let access := s.readWord (s.transferAddr x)
    (access.2.writeReg x.rd access.1).writeBack x (s.transferUpd x)

/-- LDRB (R186): the byte is zero-extended. -/
def execLdrb (c : Cond) (x : Transfer) (s : State) : Result :=
  s.predicated c fun s =>
    let access := s.readByte (s.transferAddr x)
    (access.2.writeReg x.rd (access.1.setWidth 32)).writeBack x (s.transferUpd x)

/-- STR (R187). -/
def execStr (c : Cond) (x : Transfer) (s : State) : Result :=
  s.predicated c fun s =>
    (s.writeWord (s.transferAddr x) (s.readReg x.rd)).writeBack x (s.transferUpd x)

/-- STRB (R188): the low byte of the register. -/
def execStrb (c : Cond) (x : Transfer) (s : State) : Result :=
  s.predicated c fun s =>
    (s.writeByte (s.transferAddr x) ((s.readReg x.rd).extractLsb' 0 8)).writeBack x (s.transferUpd x)

end Sys2Proof.Machine
end

