-- ==== Sys2Proof/Machine/Dispatch.lean ====
section
/-! DEFINITION. Which meaning each instruction has: one arm per constructor. -/

namespace Sys2Proof.Machine

def exec (i : Instr) (s : State) : Host.Outcome State Fault Refusal :=
  match i with
  | .b c off24 => Sys2Proof.Machine.execB c off24 s
  | .bl c off24 => Sys2Proof.Machine.execBl c off24 s
  | .ldr c x => Sys2Proof.Machine.execLdr c x s
  | .ldrb c x => Sys2Proof.Machine.execLdrb c x s
  | .str c x => Sys2Proof.Machine.execStr c x s
  | .strb c x => Sys2Proof.Machine.execStrb c x s
  | .mov c rd op2 => Sys2Proof.Machine.execMov c rd op2 s
  | .add c rd rn op2 => Sys2Proof.Machine.execAdd c rd rn op2 s
  | .sub c rd rn op2 => Sys2Proof.Machine.execSub c rd rn op2 s
  | .cmp c rn op2 => Sys2Proof.Machine.execCmp c rn op2 s
  | .armUnhandled c body => Sys2Proof.Machine.execArmUnhandled c body s
  | .tMovImm rd imm8 => Sys2Proof.Machine.execTMovImm rd imm8 s
  | .tBcond c off8 => Sys2Proof.Machine.execTBcond c off8 s
  | .tB off11 => Sys2Proof.Machine.execTB off11 s
  | .tBlHi hi11 => Sys2Proof.Machine.execTBlHi hi11 s
  | .tBlLo lo11 => Sys2Proof.Machine.execTBlLo lo11 s
  | .tUnhandled h => Sys2Proof.Machine.execTUnhandled h s

end Sys2Proof.Machine
end

