-- ==== Sys2Proof/Machine/Step.lean ====
section
/-! DEFINITION. One step (40_condition_and_step R155): fetch at `pc`, advance, execute. -/

namespace Sys2Proof.Machine

/-- `Step()` (40_condition_and_step R155). -/
def step (s : State) : Host.Outcome State Fault Refusal :=
  exec s.fetch.1 s.fetch.2

/-- The state with an instruction of spec/opcode_table.json placed where `step` fetches next (log 30, 32). -/
def State.withFetchWord (s : State) (nbits w : Nat) : State := s.hostPlaceWord nbits w

end Sys2Proof.Machine
end

