-- ==== Sys2Proof/Safety.lean ====
section
/-! DEFINITION. The terms in which claims about runs are stated. No step of this hardware can go wrong (60_exceptions
R260), so a safe run is any run; what a claim can need is that a state is well-formed, and what is reachable. -/

namespace Sys2Proof.Machine

/-- Whether a key names a byte of one of the six buffers (10_state R35) or of a cartridge image of the given length
(R36). -/
def backedKey (cartLen k : Nat) : Bool :=
  decide (k < 0x00004000)
  || (decide (0x02000000 ≤ k) && decide (k < 0x02040000))
  || (decide (0x03000000 ≤ k) && decide (k < 0x03008000))
  || (decide (0x05000000 ≤ k) && decide (k < 0x05000400))
  || (decide (0x06000000 ≤ k) && decide (k < 0x06018000))
  || (decide (0x07000000 ≤ k) && decide (k < 0x07000400))
  || (decide (0x08000000 ≤ k) && decide (k < 0x08000000 + cartLen))

/-- A well-formed state: its memory is in the canonical form and lists no byte outside the buffers and the
image. -/
def State.wf (s : State) : Bool :=
  s.mem.wf && s.mem.all (fun cell => backedKey s.cartLen cell.1)

/-- The states a run from `s` passes through: `step` repeated while it answers next. -/
inductive Reaches : State → State → Prop where
  | refl (s : State) : Reaches s s
  | tail {s t u : State} : Reaches s t → step t = .next u → Reaches s u

/-- No fault and no refusal is ever met from `s`. -/
def State.runsForever (s : State) : Prop := ∀ t, Reaches s t → ∃ u, step t = .next u

end Sys2Proof.Machine
end

