-- ==== Sys2Proof/Certificates/Slice0/Obligations.lean ====
section
/-! DEFINITION. The statements for the provers. `Sys2Proof.Spec` holds the terms they are written in; each says what
the spec says in its own arithmetic (Nat and Int formulas, tables), not in the model's operations, where the model's
operation is what the statement is about. The instruction statements start from the state after the fetch and the
advance, as the spec's pseudocode does (00_scope R14): `s.pc` is the raw slot there. -/

namespace Sys2Proof.Spec

open Sys2Proof.Machine

/-! ### Frames -/

/-- Every byte of the address space reads as before. -/
def SameMemory (s t : State) : Prop := ∀ a : Word, t.byteAt a = s.byteAt a

/-- Every register but index 15 reads as before. -/
def SameRegisters (s t : State) : Prop := ∀ j : RegIdx, j ≠ 15#4 → t.readReg j = s.readReg j

/-- What no instruction writes: the saved-flags slots, the image's length, the two parameters. -/
def Untouched (s t : State) : Prop :=
  t.savedFlags = s.savedFlags ∧ t.cartLen = s.cartLen ∧ t.bootRomWritable = s.bootRomWritable
    ∧ t.ioReadByte = s.ioReadByte

/-- Exactly the register `i` holds `v` afterwards; for index 15 the raw slot is `v` with its two low bits cleared, and
for any other index the raw slot is as before. -/
def RegisterWritten (i : RegIdx) (v : Nat) (s t : State) : Prop :=
  (∀ j : RegIdx, j ≠ 15#4 → (t.readReg j).toNat = if j = i then v else (s.readReg j).toNat)
    ∧ t.pc.toNat = if i = 15#4 then v - v % 4 else s.pc.toNat

/-! ### Transfers -/

/-- The offset of a transfer as a number (30_encoding R117). -/
def offsetNat : Offset → Nat
  | .imm imm12 => imm12.toNat
  | .zero => 0

/-- A transfer writes its base back: always when post-indexed, and when pre-indexed with the write-back bit
(42_arm_single_data_transfer R182). -/
def WritesBack (x : Transfer) : Prop := x.index ≠ .pre false

/-- Registers after a load: the write-back is last, so it wins over the loaded value (R183, R184). -/
def LoadedRegisters (x : Transfer) (data upd : Word) (s t : State) : Prop :=
  (∀ j : RegIdx, j ≠ 15#4 →
    ((WritesBack x ∧ j = x.rn → t.readReg j = upd)
      ∧ (¬ (WritesBack x ∧ j = x.rn) → j = x.rd → t.readReg j = data)
      ∧ (¬ (WritesBack x ∧ j = x.rn) → j ≠ x.rd → t.readReg j = s.readReg j)))
    ∧ (WritesBack x ∧ x.rn = 15#4 → t.pc.toNat = upd.toNat - upd.toNat % 4)
    ∧ (¬ (WritesBack x ∧ x.rn = 15#4) → x.rd = 15#4 → t.pc.toNat = data.toNat - data.toNat % 4)
    ∧ (¬ (WritesBack x ∧ x.rn = 15#4) → x.rd ≠ 15#4 → t.pc = s.pc)

/-- Registers after a store: only the base, when it is written back. -/
def StoredRegisters (x : Transfer) (upd : Word) (s t : State) : Prop :=
  (∀ j : RegIdx, j ≠ 15#4 →
    ((WritesBack x ∧ j = x.rn → t.readReg j = upd)
      ∧ (¬ (WritesBack x ∧ j = x.rn) → t.readReg j = s.readReg j)))
    ∧ (WritesBack x ∧ x.rn = 15#4 → t.pc.toNat = upd.toNat - upd.toNat % 4)
    ∧ (¬ (WritesBack x ∧ x.rn = 15#4) → t.pc = s.pc)

/-- The `k`-th byte address from `a` on, modulo 2^32 (20_memory R76). -/
def byteAddr (a : Word) (k : Nat) : Word := BitVec.ofNat 32 (a.toNat + k)

/-- Two addresses that reach one backing byte: the same address, or mirrors of each other (20_memory R65). -/
def SharesByte (a b : Word) : Prop := ∃ k, backingKey a = some k ∧ backingKey b = some k

/-- The bytes `bytes` are stored from `a` on: each writable one is read back, at its address and at every mirror of
it; every byte that no stored byte reaches reads as before. -/
def Stored (a : Word) (bytes : List Byte) (s t : State) : Prop :=
  (∀ k (h : k < bytes.length), s.writable (byteAddr a k) = true →
    t.byteAt (byteAddr a k) = bytes[k] ∧ ∀ b : Word, SharesByte b (byteAddr a k) → t.byteAt b = bytes[k])
    ∧ ∀ b : Word, (∀ k < bytes.length, s.writable (byteAddr a k) = true → ¬ SharesByte b (byteAddr a k)) →
      t.byteAt b = s.byteAt b

/-- The events of reading `n` bytes from `a` on: one for each unmapped one, in ascending order. -/
def unmappedReads (a : Word) (n : Nat) : List DiagEvent :=
  (List.range n).flatMap fun k =>
    if regionOf (byteAddr a k) = .unmapped then [.unmappedRead (byteAddr a k)] else []

/-- The events of writing `bytes` from `a` on: one for each unmapped one, with the discarded byte. -/
def unmappedWrites (a : Word) (bytes : List Byte) : List DiagEvent :=
  (List.range bytes.length).flatMap fun k =>
    if regionOf (byteAddr a k) = .unmapped then [.unmappedWrite (byteAddr a k) (bytes.getD k 0#8)] else []

/-- The four bytes of a word, least significant first. -/
def wordBytes (v : Word) : List Byte :=
  [v.extractLsb' 0 8, v.extractLsb' 8 8, v.extractLsb' 16 8, v.extractLsb' 24 8]

/-- The word at an address, little-endian, as a number. -/
def wordNat (s : State) (a : Word) : Nat :=
  (s.byteAt (byteAddr a 0)).toNat + 2 ^ 8 * (s.byteAt (byteAddr a 1)).toNat
    + 2 ^ 16 * (s.byteAt (byteAddr a 2)).toNat + 2 ^ 24 * (s.byteAt (byteAddr a 3)).toNat

/-- The half at an address, little-endian, as a number. -/
def halfNat (s : State) (a : Word) : Nat :=
  (s.byteAt (byteAddr a 0)).toNat + 2 ^ 8 * (s.byteAt (byteAddr a 1)).toNat

/-- The state an ARM instruction fetched at `s.pc` executes in: the raw slot advanced by 4, the fetch's events
reported (40_condition_and_step R155). -/
def armFetched (s : State) : State :=
  { s with pc := byteAddr s.pc 4, diagLog := s.diagLog ++ unmappedReads s.pc 4 }

/-- The state a Thumb instruction fetched at `s.pc` executes in. -/
def thumbFetched (s : State) : State :=
  { s with pc := byteAddr s.pc 2, diagLog := s.diagLog ++ unmappedReads s.pc 2 }

/-! ### The opcode table, as spec/opcode_table.json gives it: mnemonic, mask, match, in priority order -/

def armRows : List (String × Word × Word) :=
  [ ("B", 0x0F000000#32, 0x0A000000#32), ("BL", 0x0F000000#32, 0x0B000000#32),
    ("LDR", 0x0C500000#32, 0x04100000#32), ("LDRB", 0x0C500000#32, 0x04500000#32),
    ("STR", 0x0C500000#32, 0x04000000#32), ("STRB", 0x0C500000#32, 0x04400000#32),
    ("MOV", 0x01E00000#32, 0x01A00000#32), ("ADD", 0x01E00000#32, 0x00800000#32),
    ("SUB", 0x01E00000#32, 0x00400000#32), ("CMP", 0x01E00000#32, 0x01400000#32),
    ("ARM_UNHANDLED", 0x00000000#32, 0x00000000#32) ]

def thumbRows : List (String × Half × Half) :=
  [ ("T_MOV_IMM", 0xF800#16, 0x2000#16), ("T_BCOND", 0xF000#16, 0xD000#16), ("T_B", 0xF800#16, 0xE000#16),
    ("T_BL_HI", 0xF800#16, 0xF000#16), ("T_BL_LO", 0xF800#16, 0xF800#16), ("T_UNHANDLED", 0x0000#16, 0x0000#16) ]

/-- "the first row, in ascending `priority`, with `word & mask = match` is the instruction" (30_encoding R133). -/
def firstRow {n : Nat} : List (String × BitVec n × BitVec n) → BitVec n → Option String
  | [], _ => none
  | (name, mask, mtch) :: rest, w => if w &&& mask = mtch then some name else firstRow rest w

/-- The row of the opcode table an instruction stands for. -/
def rowName : Instr → String
  | .b _ _ => "B"
  | .bl _ _ => "BL"
  | .ldr _ _ => "LDR"
  | .ldrb _ _ => "LDRB"
  | .str _ _ => "STR"
  | .strb _ _ => "STRB"
  | .mov _ _ _ => "MOV"
  | .add _ _ _ _ => "ADD"
  | .sub _ _ _ _ => "SUB"
  | .cmp _ _ _ => "CMP"
  | .armUnhandled _ _ => "ARM_UNHANDLED"
  | .tMovImm _ _ => "T_MOV_IMM"
  | .tBcond _ _ => "T_BCOND"
  | .tB _ => "T_B"
  | .tBlHi _ => "T_BL_HI"
  | .tBlLo _ => "T_BL_LO"
  | .tUnhandled _ => "T_UNHANDLED"

/-- A word of class 3, data processing (30_encoding R113, R118). -/
def Class3 (w : Word) : Prop := w &&& 0x0E000000#32 ≠ 0x0A000000#32 ∧ w &&& 0x0C000000#32 ≠ 0x04000000#32

/-- The opcode field is 0xD, 0x4, 0x2 or 0xA (30_encoding R120). -/
def ImplementedOpcode (w : Word) : Prop :=
  w &&& 0x01E00000#32 = 0x01A00000#32 ∨ w &&& 0x01E00000#32 = 0x00800000#32
    ∨ w &&& 0x01E00000#32 = 0x00400000#32 ∨ w &&& 0x01E00000#32 = 0x01400000#32

/-! ### Conditions -/

/-- The condition of an instruction that has one. -/
def condOf : Instr → Option Cond
  | .b c _ => some c
  | .bl c _ => some c
  | .ldr c _ => some c
  | .ldrb c _ => some c
  | .str c _ => some c
  | .strb c _ => some c
  | .mov c _ _ => some c
  | .add c _ _ _ => some c
  | .sub c _ _ _ => some c
  | .cmp c _ _ => some c
  | .armUnhandled c _ => some c
  | .tMovImm _ _ => none
  | .tBcond c _ => some c
  | .tB _ => none
  | .tBlHi _ => none
  | .tBlLo _ => none
  | .tUnhandled _ => none

/-- The truth table of 95_test_vectors section 2.1, a row a code: the columns are NZCV = 0000 to 1111, left to
right. -/
def conditionRows : List (BitVec 16) :=
  [ 0b0000111100001111#16, 0b1111000011110000#16, 0b0011001100110011#16, 0b1100110011001100#16,
    0b0000000011111111#16, 0b1111111100000000#16, 0b0101010101010101#16, 0b1010101010101010#16,
    0b0011000000110000#16, 0b1100111111001111#16, 0b1010101001010101#16, 0b0101010110101010#16,
    0b1010000001010000#16, 0b0101111110101111#16, 0b1111111111111111#16, 0b0000000000000000#16 ]

/-! ### What each instruction reads and writes (10_state R44) -/

/-- The registers an instruction may write. -/
def destinations : Instr → List RegIdx
  | .b _ _ => []
  | .bl _ _ => [14#4]
  | .ldr _ x => if x.index = .pre false then [x.rd] else [x.rd, x.rn]
  | .ldrb _ x => if x.index = .pre false then [x.rd] else [x.rd, x.rn]
  | .str _ x => if x.index = .pre false then [] else [x.rn]
  | .strb _ x => if x.index = .pre false then [] else [x.rn]
  | .mov _ rd _ => [rd]
  | .add _ rd _ _ => [rd]
  | .sub _ rd _ _ => [rd]
  | .cmp _ _ _ => []
  | .armUnhandled _ _ => []
  | .tMovImm rd _ => [rd.setWidth 4]
  | .tBcond _ _ => []
  | .tB _ => []
  | .tBlHi _ => [14#4]
  | .tBlLo _ => [14#4]
  | .tUnhandled _ => []

/-- The instructions that write the raw slot: the branches (10_state R27 a), and those with index 15 among their
destinations (R27 b). -/
def writesPc : Instr → Bool
  | .b _ _ => true
  | .bl _ _ => true
  | .tBcond _ _ => true
  | .tB _ => true
  | .tBlLo _ => true
  | i => (destinations i).contains 15#4

/-- The events of an instruction itself, after those of its fetch, from the state it executes in (60_exceptions
R264). -/
def instrEvents (i : Instr) (s : State) : List DiagEvent :=
  match i with
  | .ldr c x => if condPassed c s.flags then unmappedReads (s.transferAddr x) 4 else []
  | .ldrb c x => if condPassed c s.flags then unmappedReads (s.transferAddr x) 1 else []
  | .str c x => if condPassed c s.flags then unmappedWrites (s.transferAddr x) (wordBytes (s.readReg x.rd)) else []
  | .strb c x =>
    if condPassed c s.flags then unmappedWrites (s.transferAddr x) [(s.readReg x.rd).extractLsb' 0 8] else []
  | .armUnhandled c body =>
    if condPassed c s.flags then
      [.unimplementedArm (BitVec.ofNat 32 (2 ^ 28 * c.toBits.toNat + body.toNat)) (s.pc - 4#32)]
    else []
  | .tUnhandled h => [.unimplementedThumb h (s.pc - 2#32)]
  | .b _ _ => []
  | .bl _ _ => []
  | .mov _ _ _ => []
  | .add _ _ _ _ => []
  | .sub _ _ _ _ => []
  | .cmp _ _ _ => []
  | .tMovImm _ _ => []
  | .tBcond _ _ => []
  | .tB _ => []
  | .tBlHi _ => []
  | .tBlLo _ => []

/-- The base and size of the regions whose size is a power of two (20_memory R64). -/
def powerRegion : Region → Option (Nat × Nat)
  | .boot => some (0x00000000, 0x4000)
  | .ewram => some (0x02000000, 0x40000)
  | .iwram => some (0x03000000, 0x8000)
  | .palette => some (0x05000000, 0x400)
  | .oam => some (0x07000000, 0x400)
  | .vram => none
  | .cart => none
  | .io => none
  | .unmapped => none

end Sys2Proof.Spec

open Sys2Proof Sys2Proof.Machine Sys2Proof.Spec

/-! ## Encoding -/

/-- Decoding an encoded well-formed instruction gives it back, with whatever bytes follow. Formats 30_encoding R111 to
R128; ignored bits are written as zero (log 33). -/
def Obligations.DecodeOfEncodeIsIdentity : Prop :=
  ∀ (i : Instr) (rest : List Byte), i.wf = true → decode i.isa (encode i ++ rest) = .ok (i, rest)

/-- Both decoders are total (30_encoding R130), and what they answer is a well-formed instruction of their own
encoding. -/
def Obligations.DecodersAnswerWellFormedInstructions : Prop :=
  (∀ w : Word, (decodeArm w).wf = true ∧ (decodeArm w).isa = .arm)
    ∧ (∀ h : Half, (decodeThumb h).wf = true ∧ (decodeThumb h).isa = .thumb)
    ∧ ∀ (isa : Isa) (bytes : List Byte), isa.bytes ≤ bytes.length →
      ∃ i, decode isa bytes = .ok (i, bytes.drop isa.bytes) ∧ i.wf = true ∧ i.isa = isa

/-- The decoder chooses the row that the opcode table's masks, matches and priorities choose (30_encoding R133,
R134). -/
def Obligations.DecoderFollowsOpcodeTable : Prop :=
  (∀ w : Word, firstRow armRows w = some (rowName (decodeArm w)))
    ∧ ∀ h : Half, firstRow thumbRows h = some (rowName (decodeThumb h))

/-- "The decoders never look at bits outside the fields their format rule names" (30_encoding R132; the spec marks
the list as its own inference): flipping ignored bits `d` does not change what a word decodes to. -/
def Obligations.IgnoredBitsDoNotMatter : Prop :=
  ∀ w d : Word,
    (w &&& 0x0E000000#32 = 0x04000000#32 → d &&& 0xFFFFF000#32 = 0#32 → decodeArm (w ^^^ d) = decodeArm w)
    ∧ (w &&& 0x0D000000#32 = 0x04000000#32 → d &&& 0xFFDFFFFF#32 = 0#32 → decodeArm (w ^^^ d) = decodeArm w)
    ∧ (Class3 w → Class3 (w ^^^ d) → ImplementedOpcode w → d &&& 0xF3EFFFFF#32 = 0#32 →
        decodeArm (w ^^^ d) = decodeArm w)
    ∧ (Class3 w → ImplementedOpcode w → w &&& 0x02000000#32 = 0#32 → d &&& 0xFFFFF00F#32 = 0#32 →
        decodeArm (w ^^^ d) = decodeArm w)
    ∧ (Class3 w → w &&& 0x01E00000#32 = 0x01A00000#32 → d &&& 0xFFF0FFFF#32 = 0#32 →
        decodeArm (w ^^^ d) = decodeArm w)
    ∧ (Class3 w → w &&& 0x01E00000#32 = 0x01400000#32 → d &&& 0xFFFF0FFF#32 = 0#32 →
        decodeArm (w ^^^ d) = decodeArm w)

/-- A few words written out from the formats (sanity): one of each family, from bytes. The field places and selectors
are the spec's general knowledge (log 22, 23), the transfer's immediate bit its D21 (log 20). -/
def Obligations.SpelledWordsDecode : Prop :=
  decode .arm [0x01#8, 0x00#8, 0x00#8, 0xEA#8] = .ok (.b .al 1#24, [])
    ∧ decode .arm [0x04#8, 0x00#8, 0x91#8, 0xE7#8]
      = .ok (.ldr .al ⟨1#4, 0#4, .imm 4#12, .up, .pre false⟩, [])
    ∧ decode .arm [0x05#8, 0x00#8, 0x51#8, 0xE3#8] = .ok (.cmp .al 1#4 (.imm 0#4 5#8), [])
    ∧ decode .arm [0x1E#8, 0xFF#8, 0x2F#8, 0xE1#8] = .ok (.armUnhandled .al 0x12FFF1E#28, [])
    ∧ decode .thumb [0x7F#8, 0x22#8] = .ok (.tMovImm 2#3 0x7F#8, [])
    ∧ decode .thumb [0x01#8, 0xE0#8] = .ok (.tB 1#11, [])

/-! ## Conditions and operands -/

/-- The condition evaluator is the truth table of 40_condition_and_step R150, all 256 cases, whatever else the flags
word holds. The numbering of the codes and the places of N, Z, C, V are the spec's general knowledge (log 5, 22). -/
def Obligations.ConditionTruthTable : Prop :=
  ∀ (k : BitVec 4) (flags : Word),
    condPassed (Cond.ofBits k) flags
      = (conditionRows.getD k.toNat 0#16).getMsbD (flags.toNat / 2 ^ 28)

/-- The rotated immediate (30_encoding R121): `imm8` rotated right by twice `rot`, an even amount from 0 to 30; with
`rot = 0` it is `imm8`; the three examples. That MOV, ADD and SUB with such an operand leave the flags, whatever bit 20
of the word holds, is the spec's D18 (43_arm_data_processing R203, log 17). -/
def Obligations.RotatedImmediateOperand : Prop :=
  (∀ (s : State) (rot : BitVec 4) (imm8 : Byte),
    s.operand2 (.imm rot imm8) = (imm8.setWidth 32).rotateRight (2 * rot.toNat)
      ∧ 2 * rot.toNat ≤ 30 ∧ (s.operand2 (.imm 0#4 imm8)).toNat = imm8.toNat)
    ∧ (∀ s : State, s.operand2 (.imm 4#4 0x03#8) = 0x03000000#32 ∧ s.operand2 (.imm 1#4 0xFF#8) = 0xC000003F#32
      ∧ s.operand2 (.imm 15#4 0x01#8) = 0x00000004#32)
    ∧ ∀ (s t : State) (c : Cond) (rd rn : RegIdx) (rot : BitVec 4) (imm8 : Byte),
      exec (.mov c rd (.imm rot imm8)) s = .next t ∨ exec (.add c rd rn (.imm rot imm8)) s = .next t
        ∨ exec (.sub c rd rn (.imm rot imm8)) s = .next t → t.flags = s.flags

/-- The ARM branch immediate (30_encoding R115): four times the signed 24-bit field, a multiple of 4 from -2^25 to
2^25 - 4, with the examples. -/
def Obligations.ArmBranchImmediate : Prop :=
  (∀ off24 : BitVec 24, (armBranchOffset off24).toInt = 4 * off24.toInt
    ∧ -2 ^ 25 ≤ (armBranchOffset off24).toInt ∧ (armBranchOffset off24).toInt ≤ 2 ^ 25 - 4
    ∧ (armBranchOffset off24).toNat % 4 = 0)
    ∧ armBranchOffset 0x000001#24 = 4#32 ∧ armBranchOffset 0xFFFFFF#24 = 0xFFFFFFFC#32
    ∧ armBranchOffset 0x800000#24 = 0xFE000000#32 ∧ armBranchOffset 0x7FFFFF#24 = 0x01FFFFFC#32

/-- The formats of the four Thumb branches and their immediates (30_encoding R125 to R128): selector and fields, sign,
scale and range. The selectors and the fields' places are the spec's general knowledge (log 23), and so is the
numbering of the conditions (log 22). -/
def Obligations.ThumbBranchImmediates : Prop :=
  (∀ (k : BitVec 4) (v : Byte),
    decodeThumb (BitVec.ofNat 16 (0b1101 * 2 ^ 12 + k.toNat * 2 ^ 8 + v.toNat)) = .tBcond (Cond.ofBits k) v
      ∧ (thumbCondOffset v).toInt = 2 * v.toInt
      ∧ -256 ≤ (thumbCondOffset v).toInt ∧ (thumbCondOffset v).toInt ≤ 254)
    ∧ (∀ v : BitVec 11, decodeThumb (BitVec.ofNat 16 (0b11100 * 2 ^ 11 + v.toNat)) = .tB v
      ∧ (thumbBranchOffset v).toInt = 2 * v.toInt
      ∧ -2048 ≤ (thumbBranchOffset v).toInt ∧ (thumbBranchOffset v).toInt ≤ 2046)
    ∧ decodeThumb 0xE001#16 = .tB 1#11 ∧ thumbBranchOffset 1#11 = 2#32
    ∧ (∀ v : BitVec 11, decodeThumb (BitVec.ofNat 16 (0b11110 * 2 ^ 11 + v.toNat)) = .tBlHi v
      ∧ (thumbHighOffset v).toInt = 4096 * v.toInt
      ∧ -2 ^ 22 ≤ (thumbHighOffset v).toInt ∧ (thumbHighOffset v).toInt ≤ 2 ^ 22 - 4096)
    ∧ ∀ v : BitVec 11, decodeThumb (BitVec.ofNat 16 (0b11111 * 2 ^ 11 + v.toNat)) = .tBlLo v
      ∧ (thumbLowOffset v).toNat = 2 * v.toNat ∧ (thumbLowOffset v).toNat ≤ 4094

/-- Effective address and updated base (42_arm_single_data_transfer R181, with R117's offset): base plus or minus the
offset modulo 2^32 (the wrap is the spec's D8, log 8; the immediate bit's polarity its D21, log 20). -/
def Obligations.TransferAddressing : Prop :=
  ∀ (s : State) (x : Transfer),
    (x.dir = .up → (s.transferUpd x).toNat = ((s.readReg x.rn).toNat + offsetNat x.offset) % 2 ^ 32)
    ∧ (x.dir = .down → (s.transferUpd x).toNat = ((s.readReg x.rn).toNat + 2 ^ 32 - offsetNat x.offset) % 2 ^ 32)
    ∧ (x.index = .post → s.transferAddr x = s.readReg x.rn)
    ∧ (x.index ≠ .post → s.transferAddr x = s.transferUpd x)

/-! ## The instructions: result and frame. Each completes under its condition alone. -/

/-- An instruction whose condition fails is "a complete no-op" (40_condition_and_step R156), and a step whose ARM word
has a failing condition changes nothing but the raw slot and the fetch's own events, whatever the other 28 bits
spell. That no other event is raised is the spec's D28 (log 26); that the condition is bits 31..28 of the word is its
general knowledge (30_encoding R112, log 22). -/
def Obligations.FailedConditionIsNoOp : Prop :=
  (∀ (i : Instr) (c : Cond) (s : State), condOf i = some c → condPassed c s.flags = false → exec i s = .next s)
    ∧ ∀ (s : State) (k : BitVec 4), flagT s.flags = false → wordNat s s.pc / 2 ^ 28 = k.toNat →
      condPassed (Cond.ofBits k) s.flags = false → step s = .next (armFetched s)

/-- B (41_arm_branch R171): only the raw slot changes, to itself plus four times the signed field; everything else of
the state is as before. The unmasked write is the spec's D7 (log 7), the wrap its D8 (log 8). -/
def Obligations.BranchResult : Prop :=
  ∀ (c : Cond) (off24 : BitVec 24) (s : State), condPassed c s.flags = true →
    exec (.b c off24) s = .next { s with pc := s.pc + BitVec.ofInt 32 (4 * off24.toInt) }

/-- BL (41_arm_branch R172): `lr` receives the raw slot, the raw slot the target; everything else is as before.
Log 7, 8. -/
def Obligations.BranchWithLinkResult : Prop :=
  ∀ (c : Cond) (off24 : BitVec 24) (s : State), condPassed c s.flags = true →
    exec (.bl c off24) s = .next { s with lr := s.pc, pc := s.pc + BitVec.ofInt 32 (4 * off24.toInt) }

/-- LDR (42_arm_single_data_transfer R183, R185): the word at the address, then the write-back; no flag, no byte of
memory changes; the events are those of the four bytes read. That the write-back wins is the spec's D22 (log 21). -/
def Obligations.LoadWordResult : Prop :=
  ∀ (c : Cond) (x : Transfer) (s : State), condPassed c s.flags = true →
    ∃ t, exec (.ldr c x) s = .next t
      ∧ LoadedRegisters x (BitVec.ofNat 32 (wordNat s (s.transferAddr x))) (s.transferUpd x) s t
      ∧ t.flags = s.flags ∧ t.diagLog = s.diagLog ++ unmappedReads (s.transferAddr x) 4
      ∧ SameMemory s t ∧ Untouched s t

/-- LDRB (42_arm_single_data_transfer R183, R186): the byte at the address, zero-extended, then the write-back. -/
def Obligations.LoadByteResult : Prop :=
  ∀ (c : Cond) (x : Transfer) (s : State), condPassed c s.flags = true →
    ∃ t, exec (.ldrb c x) s = .next t
      ∧ LoadedRegisters x (BitVec.ofNat 32 (s.byteAt (s.transferAddr x)).toNat) (s.transferUpd x) s t
      ∧ t.flags = s.flags ∧ t.diagLog = s.diagLog ++ unmappedReads (s.transferAddr x) 1
      ∧ SameMemory s t ∧ Untouched s t

/-- STR (42_arm_single_data_transfer R183, R187): the register's four bytes, least significant first, at
`s.transferAddr x`, the address the meaning computes; bytes that are not writable, and all others, read as before;
then the write-back. -/
def Obligations.StoreWordResult : Prop :=
  ∀ (c : Cond) (x : Transfer) (s : State), condPassed c s.flags = true →
    ∃ t, exec (.str c x) s = .next t
      ∧ Stored (s.transferAddr x) (wordBytes (s.readReg x.rd)) s t
      ∧ StoredRegisters x (s.transferUpd x) s t
      ∧ t.flags = s.flags
      ∧ t.diagLog = s.diagLog ++ unmappedWrites (s.transferAddr x) (wordBytes (s.readReg x.rd))
      ∧ Untouched s t

/-- STRB (42_arm_single_data_transfer R183, R188): the register's low byte at `s.transferAddr x`; "only one byte of
memory changes"; then the write-back. -/
def Obligations.StoreByteResult : Prop :=
  ∀ (c : Cond) (x : Transfer) (s : State), condPassed c s.flags = true →
    ∃ t, exec (.strb c x) s = .next t
      ∧ Stored (s.transferAddr x) [BitVec.ofNat 8 (s.readReg x.rd).toNat] s t
      ∧ StoredRegisters x (s.transferUpd x) s t
      ∧ t.flags = s.flags
      ∧ t.diagLog = s.diagLog ++ unmappedWrites (s.transferAddr x) [BitVec.ofNat 8 (s.readReg x.rd).toNat]
      ∧ Untouched s t

/-- MOV (43_arm_data_processing R204): the destination receives operand 2; a destination of 15 is a jump with the two
low bits cleared; flags untouched. -/
def Obligations.MoveResult : Prop :=
  ∀ (c : Cond) (rd : RegIdx) (o : Operand2) (s : State), condPassed c s.flags = true →
    ∃ t, exec (.mov c rd o) s = .next t ∧ RegisterWritten rd (s.operand2 o).toNat s t
      ∧ t.flags = s.flags ∧ t.diagLog = s.diagLog ∧ SameMemory s t ∧ Untouched s t

/-- ADD (43_arm_data_processing R205): source plus operand modulo 2^32; no flag changes (that bit 20 is ignored is
the spec's D18, log 17). -/
def Obligations.AddResult : Prop :=
  ∀ (c : Cond) (rd rn : RegIdx) (o : Operand2) (s : State), condPassed c s.flags = true →
    ∃ t, exec (.add c rd rn o) s = .next t
      ∧ RegisterWritten rd (((s.readReg rn).toNat + (s.operand2 o).toNat) % 2 ^ 32) s t
      ∧ t.flags = s.flags ∧ t.diagLog = s.diagLog ∧ SameMemory s t ∧ Untouched s t

/-- SUB (43_arm_data_processing R206): source minus operand modulo 2^32; no flag changes (log 17). -/
def Obligations.SubtractResult : Prop :=
  ∀ (c : Cond) (rd rn : RegIdx) (o : Operand2) (s : State), condPassed c s.flags = true →
    ∃ t, exec (.sub c rd rn o) s = .next t
      ∧ RegisterWritten rd (((s.readReg rn).toNat + 2 ^ 32 - (s.operand2 o).toNat) % 2 ^ 32) s t
      ∧ t.flags = s.flags ∧ t.diagLog = s.diagLog ∧ SameMemory s t ∧ Untouched s t

/-- CMP (43_arm_data_processing R207): N is bit 31 of the difference, Z says the operands are equal, C says the first
is at least the second as unsigned numbers, V is 0 (the spec's D20, log 19); bits 27..0 of the flags word, the
registers and memory are as before. -/
def Obligations.CompareResult : Prop :=
  ∀ (c : Cond) (rn : RegIdx) (o : Operand2) (s : State), condPassed c s.flags = true →
    ∃ t, exec (.cmp c rn o) s = .next t
      ∧ t.flags.getLsbD 31 = decide (2 ^ 31 ≤ ((s.readReg rn).toNat + 2 ^ 32 - (s.operand2 o).toNat) % 2 ^ 32)
      ∧ t.flags.getLsbD 30 = decide ((s.readReg rn).toNat = (s.operand2 o).toNat)
      ∧ t.flags.getLsbD 29 = decide ((s.operand2 o).toNat ≤ (s.readReg rn).toNat)
      ∧ t.flags.getLsbD 28 = false
      ∧ (∀ k < 28, t.flags.getLsbD k = s.flags.getLsbD k)
      ∧ SameRegisters s t ∧ t.pc = s.pc ∧ t.diagLog = s.diagLog ∧ SameMemory s t ∧ Untouched s t

/-- The ARM no-op fall-through (43_arm_data_processing R209): a class-3 word whose opcode is none of the four, when
its condition passes, reports `Unimplemented(ARM, w, A)` and changes nothing else. The condition's place and the
numbers of ADD and SUB are the spec's general knowledge (log 22), class 3 as every other word is its D17 (log 16), the
event its D27 (log 26); `A` is the raw slot minus 4 (log 34). -/
def Obligations.ArmFallThroughReportsOnly : Prop :=
  ∀ (w : Word) (s : State), Class3 w → ¬ ImplementedOpcode w →
    condPassed (Cond.ofBits (w.extractLsb' 28 4)) s.flags = true →
    (∃ c body, decodeArm w = .armUnhandled c body)
      ∧ exec (decodeArm w) s = .next { s with diagLog := s.diagLog ++ [.unimplementedArm w (s.pc - 4#32)] }

/-- Thumb MOV (44_thumb R232): `h & 0xF800 = 0x2000`; the low register `h[10:8]` receives `h[7:0]`, zero-extended;
no flag, no other register, no byte of memory changes. The selector and the fields' places are the spec's general
knowledge (log 23). -/
def Obligations.ThumbMoveResult : Prop :=
  ∀ (h : Half) (s : State), h &&& 0xF800#16 = 0x2000#16 →
    ∃ (rd : LowReg) (imm8 : Byte) (t : State), decodeThumb h = .tMovImm rd imm8
      ∧ rd.toNat = h.toNat / 2 ^ 8 % 8 ∧ imm8.toNat = h.toNat % 2 ^ 8
      ∧ exec (.tMovImm rd imm8) s = .next t
      ∧ (t.readReg (rd.setWidth 4)).toNat = h.toNat % 2 ^ 8
      ∧ (rd.setWidth 4).toNat = h.toNat / 2 ^ 8 % 8
      ∧ (∀ j : RegIdx, j ≠ 15#4 → j ≠ rd.setWidth 4 → t.readReg j = s.readReg j)
      ∧ t.sp = s.sp ∧ t.lr = s.lr ∧ t.pc = s.pc ∧ t.flags = s.flags ∧ t.diagLog = s.diagLog
      ∧ SameMemory s t ∧ Untouched s t

/-- Thumb B<cond> (44_thumb R233): when the condition passes, code 0xE included (the spec's D25, log 24), only the raw
slot changes, by twice the signed field. Log 7, 8. -/
def Obligations.ThumbConditionalBranchResult : Prop :=
  ∀ (c : Cond) (off8 : Byte) (s : State), condPassed c s.flags = true →
    exec (.tBcond c off8) s = .next { s with pc := s.pc + BitVec.ofInt 32 (2 * off8.toInt) }

/-- Thumb B (44_thumb R234): only the raw slot changes, by twice the signed field. Log 7, 8. -/
def Obligations.ThumbBranchResult : Prop :=
  ∀ (off11 : BitVec 11) (s : State),
    exec (.tB off11) s = .next { s with pc := s.pc + BitVec.ofInt 32 (2 * off11.toInt) }

/-- Thumb BL, high half (44_thumb R235): only `lr` changes, to the raw slot plus 4096 times the signed field. Log 8. -/
def Obligations.ThumbBranchLinkHighResult : Prop :=
  ∀ (hi11 : BitVec 11) (s : State),
    exec (.tBlHi hi11) s = .next { s with lr := s.pc + BitVec.ofInt 32 (4096 * hi11.toInt) }

/-- Thumb BL, low half (44_thumb R236): the raw slot receives the old `lr` plus twice the field, `lr` the old raw slot
with bit 0 set; nothing else changes. That the old `lr` is used is the spec's D26 (log 25), the unmasked write its D7
(log 7), so that an odd target stays odd (log 35), the wrap its D8 (log 8). -/
def Obligations.ThumbBranchLinkLowResult : Prop :=
  ∀ (lo11 : BitVec 11) (s : State),
    exec (.tBlLo lo11) s = .next { s with
      pc := BitVec.ofNat 32 (s.lr.toNat + 2 * lo11.toNat)
      lr := BitVec.ofNat 32 (2 * (s.pc.toNat / 2) + 1) }

/-- The Thumb no-op fall-through (44_thumb R238): a half whose selector is none of the five families reports
`Unimplemented(Thumb, h, A)` and changes nothing else. The selectors are the spec's general knowledge (log 23), the
event its D27 (log 26); `A` is the raw slot minus 2 (log 34). -/
def Obligations.ThumbFallThroughReportsOnly : Prop :=
  ∀ (h : Half) (s : State),
    h.toNat / 2 ^ 11 ∉ [0b00100, 0b11010, 0b11011, 0b11100, 0b11110, 0b11111] →
    decodeThumb h = .tUnhandled h
      ∧ exec (.tUnhandled h) s = .next { s with diagLog := s.diagLog ++ [.unimplementedThumb h (s.pc - 2#32)] }

/-! ## The step -/

/-- A step runs the decoded instruction (40_condition_and_step R155): when the bytes at `pc` decode, in the encoding
`T` selects, to `i`, the step is `exec i` in the state with the raw slot advanced and the fetch's events reported.
The wrap of the advance is the spec's D8 (log 8). -/
def Obligations.StepRunsTheDecodedInstruction : Prop :=
  ∀ (s : State) (i : Instr),
    (flagT s.flags = false →
      decode .arm [s.byteAt (byteAddr s.pc 0), s.byteAt (byteAddr s.pc 1), s.byteAt (byteAddr s.pc 2),
        s.byteAt (byteAddr s.pc 3)] = .ok (i, []) →
      step s = exec i (armFetched s))
    ∧ (flagT s.flags = true →
      decode .thumb [s.byteAt (byteAddr s.pc 0), s.byteAt (byteAddr s.pc 1)] = .ok (i, []) →
      step s = exec i (thumbFetched s))

/-- "From every state, `Step()` is defined and yields exactly one next state" (40_condition_and_step R159): no fault,
no refusal, and so from any state a run goes on for ever. -/
def Obligations.EveryStepCompletes : Prop :=
  (∀ s : State, ∃ t, step s = .next t ∧ ∀ u, step s = .next u → u = t) ∧ ∀ s : State, s.runsForever

/-- Every step keeps a state well-formed: memory in its canonical form, no byte outside the six buffers (10_state R35)
and the image (R36). The form is the model's own (log 31). -/
def Obligations.StepKeepsStateWellFormed : Prop :=
  ∀ s t : State, s.wf = true → step s = .next t → t.wf = true

/-- The state after reset is well-formed, whatever the ten parameters. -/
def Obligations.ResetStateIsWellFormed : Prop :=
  State.reset.wf = true ∧ ∀ p : LaunchParams, (State.resetWith p).wf = true

/-- "Starting from a `pc` that is a multiple of 4 with `T = 0`, every value `pc` takes is a multiple of 4" (10_state
R28, which the spec marks as derived), and `T` stays 0. That reset is such a state rests on the defaults of `RESET_PC`
and `RESET_FLAGS` (R41; the spec's D1 and D3, log 1, 3). -/
def Obligations.ArmPcStaysAligned : Prop :=
  (flagT State.reset.flags = false ∧ State.reset.pc.toNat % 4 = 0)
    ∧ (∀ s t : State, flagT s.flags = false → s.pc.toNat % 4 = 0 → step s = .next t →
      flagT t.flags = false ∧ t.pc.toNat % 4 = 0)
    ∧ ∀ s t : State, flagT s.flags = false → s.pc.toNat % 4 = 0 → Reaches s t →
      flagT t.flags = false ∧ t.pc.toNat % 4 = 0

/-- In Thumb an even `pc` stays even over every step but a BL low half whose staged `lr` is odd, which 44_thumb R236
sends to an odd address: 10_state R28's general sentence is narrowed by it (log 35). -/
def Obligations.ThumbPcStaysEven : Prop :=
  ∀ s t : State, flagT s.flags = true → s.pc.toNat % 2 = 0 →
    (halfNat s s.pc / 2 ^ 11 = 0b11111 → s.lr.toNat % 2 = 0) → step s = .next t →
    flagT t.flags = true ∧ t.pc.toNat % 2 = 0

/-- The flags word changes only in a step whose instruction is an ARM CMP with a passing condition (10_state R33). That
MOV, ADD and SUB never write it, whatever bit 20 holds, is the spec's D18 (43_arm_data_processing R203, log 17). -/
def Obligations.OnlyCompareWritesFlags : Prop :=
  ∀ s t : State, step s = .next t → t.flags ≠ s.flags →
    flagT s.flags = false ∧ ∃ c rn o, s.fetch.1 = .cmp c rn o ∧ condPassed c s.flags = true

/-- Bits 27..0 of the flags word, `T` and the mode field among them, keep their value for a whole run (10_state R30 to
R32; the places are the spec's D5, D6, log 5, 6). -/
def Obligations.EncodingAndModeNeverChange : Prop :=
  ∀ s t : State, Reaches s t →
    t.flags.toNat % 2 ^ 28 = s.flags.toNat % 2 ^ 28 ∧ flagT t.flags = flagT s.flags

/-- The saved-flags slots "are five 32-bit cells that keep their reset value and that no rule reads" (10_state R34):
a step leaves them, and from a state with other slots it does the same. -/
def Obligations.SavedFlagsAreInert : Prop :=
  (∀ s t : State, step s = .next t → t.savedFlags = s.savedFlags)
    ∧ (∀ (s t : State) (f : Vector Word 5), step s = .next t →
      step { s with savedFlags := f } = .next { t with savedFlags := f })
    ∧ ∀ t : State, Reaches State.reset t → t.savedFlags = State.reset.savedFlags

/-- The diagnostic log is write-only (10_state R40; its form is the spec's D27, log 26): a step appends to it, and
what it appends, and everything else the step does, is the same whatever the log held. -/
def Obligations.DiagnosticLogIsWriteOnly : Prop :=
  ∀ (s t : State) (l : List DiagEvent), step s = .next t →
    ∃ events, t.diagLog = s.diagLog ++ events
      ∧ step { s with diagLog := l } = .next { t with diagLog := l ++ events }

/-- No rule reads the mode field or `flags[27:6]` (10_state R30, R32, 60_exceptions R268): from a state that differs
in those bits only, a step does the same and keeps the differing bits. Log 5, 6. -/
def Obligations.ModeFieldIsNotRead : Prop :=
  ∀ (s t : State) (f : Word), f.toNat / 2 ^ 28 = s.flags.toNat / 2 ^ 28 → flagT f = flagT s.flags →
    step s = .next t →
    step { s with flags := f } =
      .next { t with flags := BitVec.ofNat 32 (2 ^ 28 * (t.flags.toNat / 2 ^ 28) + f.toNat % 2 ^ 28) }

/-- The events of a step (60_exceptions R264): those of the fetch first, in ascending byte address order, then the
instruction's own: the `Unimplemented` event of a fall-through, or those of the data access; none where the
condition fails. The log's form and that last clause are the spec's D27 and D28 (log 26); the address a fall-through
reports is computed back from the raw slot (log 34). -/
def Obligations.EventsOfAStep : Prop :=
  ∀ s t : State, step s = .next t →
    (flagT s.flags = false →
      t.diagLog = s.diagLog ++ unmappedReads s.pc 4 ++ instrEvents s.fetch.1 (armFetched s))
    ∧ (flagT s.flags = true →
      t.diagLog = s.diagLog ++ unmappedReads s.pc 2 ++ instrEvents s.fetch.1 (thumbFetched s))

/-- Which instruction writes which state (10_state R44, which the spec marks as derived): no register outside an
instruction's destinations, the raw slot only where it is named, memory only by the stores, flags only by CMP (the
spec's D18, log 17), and nothing else. -/
def Obligations.InstructionsWriteOnlyWhatTheyName : Prop :=
  ∀ (i : Instr) (s t : State), exec i s = .next t →
    (∀ j : RegIdx, j ≠ 15#4 → j ∉ destinations i → t.readReg j = s.readReg j)
    ∧ (writesPc i = false → t.pc = s.pc)
    ∧ (rowName i ≠ "STR" → rowName i ≠ "STRB" → SameMemory s t)
    ∧ (rowName i ≠ "CMP" → t.flags = s.flags)
    ∧ Untouched s t

/-- The cartridge is read-only to the core (10_state R36): it is whatever byte string was launched, of any length; no
run changes its length or any byte of its window; a load replaces it wholesale. The window and the writes dropped in
all of it are the spec's D12 (20_memory R69, log 12); that the image is fixed for a run and a load falls between steps
is its D33 (log 30). -/
def Obligations.CartridgeIsReadOnly : Prop :=
  (∀ (p : LaunchParams), (State.resetWith p).cartLen = p.cartImage.length
    ∧ ∀ a : Word, 0x08000000 ≤ a.toNat → a.toNat < 0x0A000000 → a.toNat - 0x08000000 < p.cartImage.length →
      (State.resetWith p).byteAt a = p.cartImage.getD (a.toNat - 0x08000000) 0#8)
    ∧ (∀ s t : State, Reaches s t → t.cartLen = s.cartLen
      ∧ ∀ a : Word, 0x08000000 ≤ a.toNat → a.toNat < 0x0A000000 → t.byteAt a = s.byteAt a)
    ∧ ∀ (s : State) (image : List Byte), (s.hostLoadCart (some image)).cartLen = image.length
      ∧ ∀ a : Word, 0x08000000 ≤ a.toNat → a.toNat < 0x0A000000 → a.toNat - 0x08000000 < image.length →
        (s.hostLoadCart (some image)).byteAt a = image.getD (a.toNat - 0x08000000) 0#8

/-! ## The bus -/

/-- The windows of the address map (20_memory R63, R64; their extents are the spec's D10, D11, D12, log 10, 11, 12). -/
def Obligations.RegionWindows : Prop :=
  ∀ a : Word,
    (regionOf a = .boot ↔ a.toNat ≤ 0x00FFFFFF)
    ∧ (regionOf a = .ewram ↔ 0x02000000 ≤ a.toNat ∧ a.toNat ≤ 0x02FFFFFF)
    ∧ (regionOf a = .iwram ↔ 0x03000000 ≤ a.toNat ∧ a.toNat ≤ 0x03FFFFFF)
    ∧ (regionOf a = .io ↔ 0x04000000 ≤ a.toNat ∧ a.toNat ≤ 0x040003FF)
    ∧ (regionOf a = .palette ↔ 0x05000000 ≤ a.toNat ∧ a.toNat ≤ 0x05FFFFFF)
    ∧ (regionOf a = .vram ↔ 0x06000000 ≤ a.toNat ∧ a.toNat ≤ 0x06FFFFFF)
    ∧ (regionOf a = .oam ↔ 0x07000000 ≤ a.toNat ∧ a.toNat ≤ 0x07FFFFFF)
    ∧ (regionOf a = .cart ↔ 0x08000000 ≤ a.toNat ∧ a.toNat ≤ 0x09FFFFFF)
    ∧ (regionOf a = .unmapped ↔ (0x01000000 ≤ a.toNat ∧ a.toNat ≤ 0x01FFFFFF)
      ∨ (0x04000400 ≤ a.toNat ∧ a.toNat ≤ 0x04FFFFFF) ∨ 0x0A000000 ≤ a.toNat)

/-- The in-region offset (20_memory R65): for the six masked regions it is `a & mask`, which equals `(a - base) & mask`;
for a region of size 2^k that is `a` modulo the size, always a valid index, and `a` and `a` plus the size, both in the
window, reach the same byte. Video RAM's mask has 17 bits. The cartridge's offset is `a - 0x08000000`. -/
def Obligations.RegionsWrapByMask : Prop :=
  (∀ (a : Word) (base size : Nat), powerRegion (regionOf a) = some (base, size) →
    regionOffset a = (a &&& BitVec.ofNat 32 (size - 1)).toNat ∧ regionOffset a = a.toNat % size
      ∧ regionOffset a < size ∧ backingKey a = some (base + regionOffset a)
      ∧ regionOffset a = ((a - BitVec.ofNat 32 base) &&& BitVec.ofNat 32 (size - 1)).toNat
      ∧ ∀ (b : Word) (s : State), regionOf b = regionOf a → b.toNat = a.toNat + size →
        backingKey b = backingKey a ∧ s.byteAt b = s.byteAt a)
    ∧ (∀ a : Word, regionOf a = .vram → regionOffset a = (a &&& 0x0001FFFF#32).toNat
      ∧ regionOffset a = ((a - 0x06000000#32) &&& 0x0001FFFF#32).toNat)
    ∧ ∀ a : Word, regionOf a = .cart → regionOffset a = a.toNat - 0x08000000

/-- RAM bytes (20_memory R67): in external and internal work RAM, palette and object-attribute RAM, a byte reads from
its buffer at the masked offset, a byte write changes that byte of the buffer, no other byte of any buffer, and
nothing else. -/
def Obligations.RamBytesAreStored : Prop :=
  ∀ (s : State) (a : Word) (b : Byte) (base size : Nat),
    regionOf a = .ewram ∨ regionOf a = .iwram ∨ regionOf a = .palette ∨ regionOf a = .oam →
    powerRegion (regionOf a) = some (base, size) →
    s.byteAt a = s.mem.get (base + a.toNat % size)
      ∧ ∃ m : Memory, s.writeByte a b = { s with mem := m } ∧ m.get (base + a.toNat % size) = b
        ∧ ∀ k, k ≠ base + a.toNat % size → m.get k = s.mem.get k

/-- Boot ROM, video RAM and cartridge bytes (20_memory R66, R68, R69): where they read from, and which writes are
dropped without an event. The dropped writes and the uncovered offsets are the spec's D12, D13, D14 (log 12, 13,
14). -/
def Obligations.RomAndVideoBytes : Prop :=
  ∀ (s : State) (a : Word) (b : Byte),
    (regionOf a = .boot → s.byteAt a = s.mem.get (a.toNat % 0x4000)
      ∧ (s.bootRomWritable = false → s.writeByte a b = s)
      ∧ (s.bootRomWritable = true → (s.writeByte a b).byteAt a = b ∧ (s.writeByte a b).diagLog = s.diagLog))
    ∧ (regionOf a = .vram → a.toNat % 0x20000 < 0x18000 →
      s.byteAt a = s.mem.get (0x06000000 + a.toNat % 0x20000)
        ∧ (s.writeByte a b).byteAt a = b ∧ (s.writeByte a b).diagLog = s.diagLog)
    ∧ (regionOf a = .vram → 0x18000 ≤ a.toNat % 0x20000 →
      s.readByte a = (0xFF#8, s) ∧ s.writeByte a b = s)
    ∧ (regionOf a = .cart → a.toNat - 0x08000000 < s.cartLen → s.readByte a = (s.mem.get a.toNat, s))
    ∧ (regionOf a = .cart → s.cartLen ≤ a.toNat - 0x08000000 → s.readByte a = (0xFF#8, s))
    ∧ (regionOf a = .cart → s.writeByte a b = s)

/-- The I/O window has no state (10_state R37): "A write to it changes nothing; a read from it returns `IO_READ_BYTE`
and changes nothing". The window's extent and that every read answers this one byte are the spec's D11 (20_memory R78,
log 11). -/
def Obligations.IoWindowHasNoState : Prop :=
  ∀ (s : State) (a : Word) (b : Byte), 0x04000000 ≤ a.toNat → a.toNat ≤ 0x040003FF →
    s.writeByte a b = s ∧ s.readByte a = (s.ioReadByte, s)

/-- Unmapped reads (20_memory R79): 0xFF and one event a byte; a fully unmapped half is 0xFFFF, a fully unmapped word
0xFFFFFFFF, with an event for each byte in ascending order; nothing else of the state changes. -/
def Obligations.UnmappedReadsAreOpenBus : Prop :=
  ∀ (s : State) (a : Word), regionOf a = .unmapped →
    s.readByte a = (0xFF#8, { s with diagLog := s.diagLog ++ [.unmappedRead a] })
    ∧ (regionOf (a + 1#32) = .unmapped →
      s.readHalf a = (0xFFFF#16, { s with diagLog := s.diagLog ++ [.unmappedRead a, .unmappedRead (a + 1#32)] }))
    ∧ (regionOf (a + 1#32) = .unmapped → regionOf (a + 2#32) = .unmapped → regionOf (a + 3#32) = .unmapped →
      s.readWord a = (0xFFFFFFFF#32, { s with diagLog := s.diagLog ++
        [.unmappedRead a, .unmappedRead (a + 1#32), .unmappedRead (a + 2#32), .unmappedRead (a + 3#32)] }))

/-- Unmapped writes (20_memory R80): no register, flag or buffer changes; one event with the address and the discarded
byte. -/
def Obligations.UnmappedWritesAreDiscarded : Prop :=
  ∀ (s : State) (a : Word) (b : Byte), regionOf a = .unmapped →
    s.writeByte a b = { s with diagLog := s.diagLog ++ [.unmappedWrite a b] }

/-- Halves and words are composed of byte reads, least significant first (20_memory R70 to R72, R81), at exactly the
address given (R82), each byte dispatched alone (R77); the only change is the events. Byte addresses wrap modulo 2^32
by the spec's D15 (log 8), no alignment is its D16 (log 15). -/
def Obligations.ReadsComposeLittleEndian : Prop :=
  ∀ (s : State) (a : Word),
    (s.readByte a).1 = s.byteAt a
    ∧ (s.readHalf a).1.toNat = halfNat s a
    ∧ (s.readWord a).1.toNat = wordNat s a
    ∧ (s.readByte a).2 = { s with diagLog := s.diagLog ++ unmappedReads a 1 }
    ∧ (s.readHalf a).2 = { s with diagLog := s.diagLog ++ unmappedReads a 2 }
    ∧ (s.readWord a).2 = { s with diagLog := s.diagLog ++ unmappedReads a 4 }

/-- Write-then-read (20_memory R92 a, R81): where every byte is writable, a read of the same width gives the value
written back, and each byte reads as its part of it. That the bytes of one access reach different backing bytes is
proved, not assumed. -/
def Obligations.WriteThenReadGivesTheValue : Prop :=
  ∀ (s : State) (a : Word),
    (∀ b : Byte, s.writable a = true → ((s.writeByte a b).readByte a).1 = b)
    ∧ (∀ v : Half, s.writable a = true → s.writable (byteAddr a 1) = true →
      ((s.writeHalf a v).readHalf a).1 = v)
    ∧ ∀ v : Word, (∀ k < 4, s.writable (byteAddr a k) = true) →
      ((s.writeWord a v).readWord a).1 = v
      ∧ ∀ k < 4, ((s.writeWord a v).byteAt (byteAddr a k)).toNat = v.toNat / 2 ^ (8 * k) % 2 ^ 8

/-! ## Registers, reset, host -/

/-- Operand read (10_state R24): `r0` to `r12`, `sp`, `lr` unmodified, index 15 the raw slot plus 8 modulo 2^32 (the
spec's D8, D9, log 8, 9). -/
def Obligations.OperandReadOfEveryIndex : Prop :=
  ∀ (s : State) (i : RegIdx),
    (∀ h : i.toNat < 13, s.readReg i = s.r[i.toNat])
    ∧ (i.toNat = 13 → s.readReg i = s.sp)
    ∧ (i.toNat = 14 → s.readReg i = s.lr)
    ∧ (i.toNat = 15 → (s.readReg i).toNat = (s.pc.toNat + 8) % 2 ^ 32)

/-- Register write (10_state R25): every index but 15 stores verbatim, 15 stores the value with its two low bits
cleared, and the write "does not read or change `T`, the flags, or anything else". Apart from the branches, only MOV,
ADD, SUB, LDR and LDRB with destination 15, and LDR, LDRB, STR and STRB with a written-back base of 15, change the
slot. -/
def Obligations.RegisterWriteOfEveryIndex : Prop :=
  ∀ (s : State) (i : RegIdx) (v : Word),
    (∀ h : i.toNat < 13, ∃ r, s.writeReg i v = { s with r := r } ∧ r[i.toNat] = v
      ∧ ∀ k (hk : k < 13), k ≠ i.toNat → r[k] = s.r[k])
    ∧ (i.toNat = 13 → s.writeReg i v = { s with sp := v })
    ∧ (i.toNat = 14 → s.writeReg i v = { s with lr := v })
    ∧ (i.toNat = 15 → s.writeReg i v = { s with pc := BitVec.ofNat 32 (v.toNat - v.toNat % 4) })
    ∧ ∀ (ins : Instr) (t : State), exec ins s = .next t → t.pc ≠ s.pc →
      rowName ins ∈ ["B", "BL", "T_BCOND", "T_B", "T_BL_LO"]
        ∨ (rowName ins ∈ ["MOV", "ADD", "SUB", "LDR", "LDRB", "STR", "STRB"] ∧ 15#4 ∈ destinations ins)

/-- Reset (10_state R41, R42, 70_reset R290): every register is its parameter, the RAMs are zero, boot ROM and cartridge
hold their images, the I/O window reads its parameter, the log is empty; and the values with the default parameters.
The defaults are the spec's own (D1 to D4, D11, D13, D33; log 1 to 4, 11, 13, 30); so are the windows, 0xFF at the
video RAM offsets no buffer covers, one I/O byte, and the empty log (D10 to D12, D14, D27; log 10, 11, 12, 14, 26). -/
def Obligations.ResetStateFollowsParameters : Prop :=
  (∀ p : LaunchParams,
    (∀ i : RegIdx, ∀ h : i.toNat < 13, (State.resetWith p).readReg i = p.resetGpr[i.toNat])
    ∧ (State.resetWith p).sp = p.resetSp ∧ (State.resetWith p).lr = p.resetLr
    ∧ (State.resetWith p).pc = p.resetPc ∧ (State.resetWith p).flags = p.resetFlags
    ∧ (State.resetWith p).savedFlags = p.resetSavedFlags ∧ (State.resetWith p).diagLog = []
    ∧ (State.resetWith p).cartLen = p.cartImage.length
    ∧ (State.resetWith p).bootRomWritable = p.bootRomWritable ∧ (State.resetWith p).ioReadByte = p.ioReadByte
    ∧ (∀ a : Word, 0x04000000 ≤ a.toNat → a.toNat ≤ 0x040003FF → (State.resetWith p).byteAt a = p.ioReadByte)
    ∧ (∀ a : Word, regionOf a = .vram → 0x18000 ≤ a.toNat % 0x20000 → (State.resetWith p).byteAt a = 0xFF#8)
    ∧ (∀ a : Word, 0x02000000 ≤ a.toNat → a.toNat ≤ 0x03FFFFFF ∨ (0x05000000 ≤ a.toNat ∧ a.toNat ≤ 0x07FFFFFF) →
      (regionOf a = .vram → a.toNat % 0x20000 < 0x18000) → (State.resetWith p).byteAt a = 0x00#8)
    ∧ (∀ a : Word, a.toNat ≤ 0x00FFFFFF →
      (State.resetWith p).byteAt a = p.bootImage.getD (a.toNat % 0x4000) 0x00#8)
    ∧ ∀ a : Word, 0x08000000 ≤ a.toNat → a.toNat ≤ 0x09FFFFFF →
      (State.resetWith p).byteAt a = p.cartImage.getD (a.toNat - 0x08000000) 0xFF#8)
    ∧ State.reset.pc = 0x08000000#32 ∧ State.reset.sp = 0x03007F00#32 ∧ State.reset.lr = 0x00000000#32
    ∧ State.reset.flags = 0x0000001F#32 ∧ (∀ i : RegIdx, i.toNat < 13 → State.reset.readReg i = 0x00000000#32)
    ∧ (∀ k (h : k < 5), State.reset.savedFlags[k] = 0x00000000#32)
    ∧ State.reset.mem = [] ∧ State.reset.cartLen = 0
    ∧ State.reset.bootRomWritable = false ∧ State.reset.ioReadByte = 0x00#8

/-- Instruction-fetch coherence (20_memory R90, which the spec marks as derived): a STR that overwrites the word that
follows it "causes the new word to be executed next". -/
def Obligations.StoreIsSeenByTheNextFetch : Prop :=
  ∀ (s : State) (c : Cond) (x : Transfer), flagT s.flags = false → s.fetch.1 = .str c x →
    condPassed c s.flags = true → (armFetched s).transferAddr x = byteAddr s.pc 4 →
    (WritesBack x → x.rn ≠ 15#4) → (∀ k < 4, s.writable (byteAddr s.pc (4 + k)) = true) →
    ∃ t, step s = .next t ∧ t.pc = byteAddr s.pc 4
      ∧ step t = exec (decodeArm ((armFetched s).readReg x.rd)) { t with pc := byteAddr s.pc 8 }

/-- A branch to itself (41_arm_branch R171, 44_thumb R234, 70_reset R307 b): at ARM `0xEAFFFFFF` or Thumb `0xE7FF` a
step leaves the state as it is, but for the events of a fetch that touches unmapped bytes. The words' decoding rests on
log 22 and 23, the unmasked write and the wrap on log 7 and 8. -/
def Obligations.SelfBranchLeavesTheState : Prop :=
  ∀ s : State,
    (flagT s.flags = false → wordNat s s.pc = 0xEAFFFFFF →
      step s = .next { s with diagLog := s.diagLog ++ unmappedReads s.pc 4 })
    ∧ (flagT s.flags = true → halfNat s s.pc = 0xE7FF →
      step s = .next { s with diagLog := s.diagLog ++ unmappedReads s.pc 2 })

/-- The Thumb BL pair (44_thumb R237, which the spec marks as derived): a high half at `A1` and a low half after it
leave `pc` at `A1 + 2` plus the displacement and `lr` at `A1 + 4` with bit 0 set, and change nothing else but the log
of a fetch that touches unmapped bytes. Log 7, 8, 23, 25. -/
def Obligations.ThumbBranchLinkPair : Prop :=
  ∀ (s : State) (hi11 lo11 : BitVec 11), flagT s.flags = true →
    halfNat s s.pc = 0b11110 * 2 ^ 11 + hi11.toNat →
    halfNat s (byteAddr s.pc 2) = 0b11111 * 2 ^ 11 + lo11.toNat →
    ∃ t, step s = .next t
      ∧ step t = .next { s with
          pc := s.pc + 2#32 + BitVec.ofInt 32 (4096 * hi11.toInt + 2 * (lo11.toNat : Int))
          lr := BitVec.ofNat 32 (2 * ((byteAddr s.pc 4).toNat / 2) + 1)
          diagLog := s.diagLog ++ unmappedReads s.pc 2 ++ unmappedReads (byteAddr s.pc 2) 2 }

/-- Loading a cartridge image "replaces the owned image buffer wholesale" and leaves everything else (70_reset R300);
a failed load changes nothing (60_exceptions R274). That a load falls between steps is the spec's D33 (log 30). -/
def Obligations.CartridgeLoadReplacesTheImage : Prop :=
  (∀ s : State, s.hostLoadCart none = s)
    ∧ ∀ (s : State) (image : List Byte),
      (∀ a : Word, regionOf a = .cart →
        (s.hostLoadCart (some image)).byteAt a = image.getD (a.toNat - 0x08000000) 0xFF#8)
      ∧ (∀ a : Word, regionOf a ≠ .cart → (s.hostLoadCart (some image)).byteAt a = s.byteAt a)
      ∧ ∃ m : Memory, s.hostLoadCart (some image) = { s with mem := m, cartLen := image.length }
end

