-- ==== Sys2Proof/Laws/AddressMap.lean ====
section
/-! SUPPORT. The address map in closed form: which addresses a region takes, and which backing byte an address
reaches. -/

namespace Sys2Proof.Machine

/-- The dispatch table as comparisons in address order. -/
theorem regionOf_eq (a : Word) : regionOf a =
    if a.toNat ≤ 0x00FFFFFF then .boot
    else if a.toNat ≤ 0x01FFFFFF then .unmapped
    else if a.toNat ≤ 0x02FFFFFF then .ewram
    else if a.toNat ≤ 0x03FFFFFF then .iwram
    else if a.toNat ≤ 0x040003FF then .io
    else if a.toNat ≤ 0x04FFFFFF then .unmapped
    else if a.toNat ≤ 0x05FFFFFF then .palette
    else if a.toNat ≤ 0x06FFFFFF then .vram
    else if a.toNat ≤ 0x07FFFFFF then .oam
    else if a.toNat ≤ 0x09FFFFFF then .cart
    else .unmapped := by
  generalize hn : a.toNat = n
  unfold regionOf regionTable
  simp only [hn, List.find?]
  split_ifs <;> simp (disch := omega) only [decide_eq_true, decide_eq_false, Bool.and_true, Bool.and_false]

/-! ### Masks are remainders (20_memory R65) -/

theorem toNat_and_boot (a : Word) : (a &&& 0x00003FFF#32).toNat = a.toNat % 0x4000 := by
  rw [BitVec.toNat_and]; exact Nat.and_two_pow_sub_one_eq_mod a.toNat 14

theorem toNat_and_ewram (a : Word) : (a &&& 0x0003FFFF#32).toNat = a.toNat % 0x40000 := by
  rw [BitVec.toNat_and]; exact Nat.and_two_pow_sub_one_eq_mod a.toNat 18

theorem toNat_and_iwram (a : Word) : (a &&& 0x00007FFF#32).toNat = a.toNat % 0x8000 := by
  rw [BitVec.toNat_and]; exact Nat.and_two_pow_sub_one_eq_mod a.toNat 15

theorem toNat_and_vram (a : Word) : (a &&& 0x0001FFFF#32).toNat = a.toNat % 0x20000 := by
  rw [BitVec.toNat_and]; exact Nat.and_two_pow_sub_one_eq_mod a.toNat 17

theorem toNat_and_kilo (a : Word) : (a &&& 0x000003FF#32).toNat = a.toNat % 0x400 := by
  rw [BitVec.toNat_and]; exact Nat.and_two_pow_sub_one_eq_mod a.toNat 10

/-! ### The window, the offset and the key of each region, from the region alone -/

theorem region_boot {a : Word} (h : regionOf a = .boot) :
    a.toNat < 0x01000000 ∧ regionOffset a = a.toNat % 0x4000 ∧ byteKey a = a.toNat % 0x4000 := by
  refine ⟨?_, ?_, ?_⟩
  · rw [regionOf_eq] at h; split_ifs at h; omega
  · simp only [regionOffset, h, Region.mask, toNat_and_boot]
  · simp only [byteKey, regionOffset, h, Region.mask, Region.base, toNat_and_boot, Nat.zero_add]

theorem region_ewram {a : Word} (h : regionOf a = .ewram) :
    (0x02000000 ≤ a.toNat ∧ a.toNat < 0x03000000) ∧ regionOffset a = a.toNat % 0x40000
      ∧ byteKey a = 0x02000000 + a.toNat % 0x40000 := by
  refine ⟨?_, ?_, ?_⟩
  · rw [regionOf_eq] at h; split_ifs at h; omega
  · simp only [regionOffset, h, Region.mask, toNat_and_ewram]
  · simp only [byteKey, regionOffset, h, Region.mask, Region.base, toNat_and_ewram]

theorem region_iwram {a : Word} (h : regionOf a = .iwram) :
    (0x03000000 ≤ a.toNat ∧ a.toNat < 0x04000000) ∧ regionOffset a = a.toNat % 0x8000
      ∧ byteKey a = 0x03000000 + a.toNat % 0x8000 := by
  refine ⟨?_, ?_, ?_⟩
  · rw [regionOf_eq] at h; split_ifs at h; omega
  · simp only [regionOffset, h, Region.mask, toNat_and_iwram]
  · simp only [byteKey, regionOffset, h, Region.mask, Region.base, toNat_and_iwram]

theorem region_palette {a : Word} (h : regionOf a = .palette) :
    (0x05000000 ≤ a.toNat ∧ a.toNat < 0x06000000) ∧ regionOffset a = a.toNat % 0x400
      ∧ byteKey a = 0x05000000 + a.toNat % 0x400 := by
  refine ⟨?_, ?_, ?_⟩
  · rw [regionOf_eq] at h; split_ifs at h; omega
  · simp only [regionOffset, h, Region.mask, toNat_and_kilo]
  · simp only [byteKey, regionOffset, h, Region.mask, Region.base, toNat_and_kilo]

theorem region_vram {a : Word} (h : regionOf a = .vram) :
    (0x06000000 ≤ a.toNat ∧ a.toNat < 0x07000000) ∧ regionOffset a = a.toNat % 0x20000
      ∧ byteKey a = 0x06000000 + a.toNat % 0x20000 := by
  refine ⟨?_, ?_, ?_⟩
  · rw [regionOf_eq] at h; split_ifs at h; omega
  · simp only [regionOffset, h, Region.mask, toNat_and_vram]
  · simp only [byteKey, regionOffset, h, Region.mask, Region.base, toNat_and_vram]

theorem region_oam {a : Word} (h : regionOf a = .oam) :
    (0x07000000 ≤ a.toNat ∧ a.toNat < 0x08000000) ∧ regionOffset a = a.toNat % 0x400
      ∧ byteKey a = 0x07000000 + a.toNat % 0x400 := by
  refine ⟨?_, ?_, ?_⟩
  · rw [regionOf_eq] at h; split_ifs at h; omega
  · simp only [regionOffset, h, Region.mask, toNat_and_kilo]
  · simp only [byteKey, regionOffset, h, Region.mask, Region.base, toNat_and_kilo]

theorem region_cart {a : Word} (h : regionOf a = .cart) :
    (0x08000000 ≤ a.toNat ∧ a.toNat < 0x0A000000) ∧ regionOffset a = a.toNat - 0x08000000
      ∧ byteKey a = a.toNat := by
  have hw : 0x08000000 ≤ a.toNat ∧ a.toNat < 0x0A000000 := by
    rw [regionOf_eq] at h; split_ifs at h; omega
  refine ⟨hw, ?_, ?_⟩
  · simp [regionOffset, h]
  · simp only [byteKey, regionOffset, h, Region.base]; omega

theorem region_io {a : Word} (h : regionOf a = .io) : 0x04000000 ≤ a.toNat ∧ a.toNat < 0x04000400 := by
  rw [regionOf_eq] at h; split_ifs at h; omega

theorem region_unmapped {a : Word} (h : regionOf a = .unmapped) :
    (0x01000000 ≤ a.toNat ∧ a.toNat < 0x02000000) ∨ (0x04000400 ≤ a.toNat ∧ a.toNat < 0x05000000)
      ∨ 0x0A000000 ≤ a.toNat := by
  rw [regionOf_eq] at h; split_ifs at h <;> omega

/-! ### Backing bytes -/

/-- An address with a backing byte reaches it under its `byteKey`. -/
theorem byteKey_of_backingKey {a : Word} {k : Nat} (h : backingKey a = some k) : byteKey a = k := by
  unfold backingKey at h
  split at h
  · simp at h
  · simp at h
  · split at h
    · simpa using h
    · simp at h
  all_goals simpa using h

/-- A key keeps the low ten bits of the address, whatever the region: no mask is narrower. -/
theorem backingKey_mod {a : Word} {k : Nat} (h : backingKey a = some k) : k % 0x400 = a.toNat % 0x400 := by
  have hk := byteKey_of_backingKey h
  cases r : regionOf a
  case boot => have := region_boot r; omega
  case ewram => have := region_ewram r; omega
  case iwram => have := region_iwram r; omega
  case vram => have := region_vram r; omega
  case palette => have := region_palette r; omega
  case oam => have := region_oam r; omega
  case cart => have := region_cart r; omega
  case io => simp [backingKey, r] at h
  case unmapped => simp [backingKey, r] at h

/-- Two addresses one, two or three apart that both have a backing byte reach different ones. -/
theorem backingKey_ne_of_near {a b : Word} {k l : Nat} (ha : backingKey a = some k) (hb : backingKey b = some l)
    (hne : a ≠ b) (hnear : a.toNat < b.toNat + 4 ∧ b.toNat < a.toNat + 4) : k ≠ l := by
  have hk := backingKey_mod ha
  have hl := backingKey_mod hb
  have hne' : a.toNat ≠ b.toNat := fun e => hne (BitVec.eq_of_toNat_eq e)
  omega

/-- An address past 0x09FFFFFF is unmapped. -/
theorem regionOf_high {a : Word} (h : 0x0A000000 ≤ a.toNat) : regionOf a = .unmapped := by
  rw [regionOf_eq]; split_ifs <;> first | omega | rfl

theorem backingKey_unmapped {a : Word} (h : regionOf a = .unmapped) : backingKey a = none := by
  simp [backingKey, h]

theorem backingKey_io {a : Word} (h : regionOf a = .io) : backingKey a = none := by
  simp [backingKey, h]

/-- The bytes of one half or word reach different backing bytes, wrapping at 2^32 included. -/
theorem backingKey_ne_within_word {a i j : Word} {k l : Nat} (hk : backingKey (a + i) = some k)
    (hl : backingKey (a + j) = some l) (hij : i ≠ j) (hi : i.toNat < 4) (hj : j.toNat < 4) : k ≠ l := by
  have mapped : ∀ {d : Word} {m : Nat}, backingKey (a + d) = some m → (a + d).toNat < 0x0A000000 := by
    intro d m hd
    by_contra hge
    rw [backingKey_unmapped (regionOf_high (not_lt.mp hge))] at hd
    simp at hd
  have mi := mapped hk
  have mj := mapped hl
  have hne : i.toNat ≠ j.toNat := fun e => hij (BitVec.eq_of_toNat_eq e)
  have ha := a.isLt
  rw [BitVec.toNat_add] at mi mj
  refine backingKey_ne_of_near hk hl (fun e => hne ?_) ?_
  · have := congrArg BitVec.toNat e
    rw [BitVec.toNat_add, BitVec.toNat_add] at this
    omega
  · rw [BitVec.toNat_add, BitVec.toNat_add]
    omega

end Sys2Proof.Machine
end

