-- ==== Sys2Proof/Laws/Memory.lean ====
section
/-! SUPPORT. The laws of the stored bytes: reading after writing, and every operation keeps the canonical form. -/

namespace Sys2Proof.Machine

/-! ### Reading -/

theorem Memory.get_nil (k : Nat) : Memory.get [] k = unlistedByte k := rfl

/-- A key that no cell lists reads as unlisted. -/
theorem Memory.get_of_forall_ne (m : Memory) (k : Nat) (h : ∀ c ∈ m, c.1 ≠ k) : m.get k = unlistedByte k := by
  induction m with
  | nil => rfl
  | cons c rest ih =>
    obtain ⟨k', b⟩ := c
    have hk : k ≠ k' := fun e => h (k', b) (by simp) e.symm
    rw [Memory.get, if_neg hk]
    exact ih fun c hc => h c (by simp [hc])

theorem Memory.get_erase (m : Memory) (k j : Nat) : (m.erase k).get j = if j = k then unlistedByte k else m.get j := by
  induction m with
  | nil => by_cases h : j = k <;> simp [Memory.erase, Memory.get, h]
  | cons c rest ih =>
    obtain ⟨k', b⟩ := c
    by_cases hk : k' = k
    · subst hk
      have : Memory.erase ((k', b) :: rest) k' = Memory.erase rest k' := by simp [Memory.erase]
      rw [this, ih]
      by_cases hj : j = k' <;> simp [Memory.get, hj]
    · have : Memory.erase ((k', b) :: rest) k = (k', b) :: Memory.erase rest k := by simp [Memory.erase, hk]
      rw [this, Memory.get, ih]
      by_cases hj : j = k'
      · subst hj; simp [Memory.get, hk]
      · simp [Memory.get, hj]

theorem Memory.get_insertCell (m : Memory) (k j : Nat) (b : Byte) (h : ∀ c ∈ m, c.1 ≠ k) :
    (m.insertCell k b).get j = if j = k then b else m.get j := by
  induction m with
  | nil => simp [Memory.insertCell, Memory.get]
  | cons c rest ih =>
    obtain ⟨k', b'⟩ := c
    have hk : k' ≠ k := h (k', b') (by simp)
    by_cases hlt : k < k'
    · simp [Memory.insertCell, hlt, Memory.get]
    · rw [Memory.insertCell, if_neg hlt, Memory.get, ih fun c hc => h c (by simp [hc])]
      by_cases hj : j = k'
      · subst hj; simp [Memory.get, hk]
      · simp [Memory.get, hj]

theorem Memory.erase_ne (m : Memory) (k : Nat) : ∀ c ∈ m.erase k, c.1 ≠ k := by
  intro c hc
  simpa [Memory.erase] using (List.mem_filter.mp hc).2

/-- Reading a byte after writing one. -/
theorem Memory.get_set (m : Memory) (k j : Nat) (b : Byte) : (m.set k b).get j = if j = k then b else m.get j := by
  unfold Memory.set
  split
  next h => rw [Memory.get_erase, ← h]
  next =>
    rw [Memory.get_insertCell _ _ _ _ (Memory.erase_ne m k), Memory.get_erase]
    by_cases hj : j = k <;> simp [hj]

@[simp] theorem Memory.get_set_self (m : Memory) (k : Nat) (b : Byte) : (m.set k b).get k = b := by
  simp [Memory.get_set]

theorem Memory.get_set_ne (m : Memory) {k j : Nat} (b : Byte) (h : j ≠ k) : (m.set k b).get j = m.get j := by
  simp [Memory.get_set, h]

theorem Memory.get_setList (m : Memory) (k j : Nat) (bs : List Byte) :
    (m.setList k bs).get j = if h : k ≤ j ∧ j - k < bs.length then bs[j - k]'h.2 else m.get j := by
  induction bs generalizing m k with
  | nil => simp [Memory.setList]
  | cons b rest ih =>
    rw [Memory.setList, ih, Memory.get_set]
    by_cases h1 : j = k
    · subst h1; simp
    · by_cases h2 : k + 1 ≤ j
      · have e : j - k = (j - (k + 1)) + 1 := by omega
        have hk : k ≤ j := by omega
        by_cases h3 : j - (k + 1) < rest.length
        · simp [h2, h3, hk, e]
        · have h4 : ¬ j - k < rest.length + 1 := by omega
          simp [h3, h4, h1]
      · have hk : ¬ k ≤ j := by omega
        simp [h1, h2, hk]

/-! ### The canonical form -/

/-- `sorted` as a pairwise fact. -/
theorem Memory.sorted_iff (m : Memory) : m.sorted = true ↔ m.Pairwise (fun c d => c.1 < d.1) := by
  induction m with
  | nil => simp [Memory.sorted]
  | cons c rest ih =>
    cases rest with
    | nil => simp [Memory.sorted]
    | cons d rest' =>
      obtain ⟨k, b⟩ := c
      obtain ⟨k', b'⟩ := d
      rw [Memory.sorted, Bool.and_eq_true, ih, decide_eq_true_iff, List.pairwise_cons (a := (k, b))]
      constructor
      · rintro ⟨hlt, hp⟩
        refine ⟨fun x hx => ?_, hp⟩
        rcases List.mem_cons.mp hx with rfl | hx
        · exact hlt
        · exact hlt.trans ((List.pairwise_cons.mp hp).1 x hx)
      · exact fun ⟨hall, hp⟩ => ⟨hall (k', b') (by simp), hp⟩

/-- The canonical form as two plain facts. -/
theorem Memory.wf_iff (m : Memory) :
    m.wf = true ↔ m.Pairwise (fun c d => c.1 < d.1) ∧ ∀ c ∈ m, c.2 ≠ unlistedByte c.1 := by
  rw [Memory.wf, Bool.and_eq_true, Memory.sorted_iff]
  simp [List.all_eq_true]

theorem Memory.wf_nil : Memory.wf [] = true := rfl

/-- Dropping cells keeps the canonical form. -/
theorem Memory.wf_filter (m : Memory) (p : Host.Cell → Bool) (h : m.wf = true) : Memory.wf (m.filter p) = true := by
  rw [Memory.wf_iff] at h ⊢
  exact ⟨h.1.filter p, fun c hc => h.2 c (List.mem_of_mem_filter hc)⟩

theorem Memory.mem_insertCell (m : Memory) (k : Nat) (b : Byte) (c : Host.Cell) :
    c ∈ m.insertCell k b ↔ c = (k, b) ∨ c ∈ m := by
  induction m with
  | nil => simp [Memory.insertCell]
  | cons d rest ih =>
    obtain ⟨k', b'⟩ := d
    rw [Memory.insertCell]
    split
    · simp
    · rw [List.mem_cons, ih, List.mem_cons]
      tauto

theorem Memory.pairwise_insertCell (m : Memory) (k : Nat) (b : Byte) (hne : ∀ c ∈ m, c.1 ≠ k)
    (h : m.Pairwise (fun c d => c.1 < d.1)) : (m.insertCell k b).Pairwise (fun c d => c.1 < d.1) := by
  induction m with
  | nil => simp [Memory.insertCell]
  | cons d rest ih =>
    obtain ⟨k', b'⟩ := d
    have hne' := hne (k', b') (by simp)
    obtain ⟨hall, hrest⟩ := List.pairwise_cons.mp h
    rw [Memory.insertCell]
    split
    next hlt =>
      refine List.pairwise_cons.mpr ⟨fun c hc => ?_, h⟩
      rcases List.mem_cons.mp hc with rfl | hc
      · exact hlt
      · exact hlt.trans (hall c hc)
    next hge =>
      refine List.pairwise_cons.mpr ⟨fun c hc => ?_, ih (fun c hc => hne c (by simp [hc])) hrest⟩
      rcases (Memory.mem_insertCell rest k b c).mp hc with rfl | hc
      · exact lt_of_le_of_ne (not_lt.mp hge) hne'
      · exact hall c hc

/-- Writing a byte keeps the canonical form. -/
theorem Memory.wf_set (m : Memory) (k : Nat) (b : Byte) (h : m.wf = true) : (m.set k b).wf = true := by
  have he := Memory.wf_filter m (fun cell => cell.1 != k) h
  unfold Memory.set
  split
  · exact he
  next hb =>
    rw [Memory.wf_iff] at he ⊢
    refine ⟨Memory.pairwise_insertCell _ _ _ (Memory.erase_ne m k) he.1, fun c hc => ?_⟩
    rcases (Memory.mem_insertCell _ _ _ c).mp hc with rfl | hc
    · exact hb
    · exact he.2 c hc

/-- Storing a list of bytes keeps the canonical form. -/
theorem Memory.wf_setList (m : Memory) (k : Nat) (bs : List Byte) (h : m.wf = true) :
    (m.setList k bs).wf = true := by
  induction bs generalizing m k with
  | nil => exact h
  | cons b rest ih => exact ih _ _ (Memory.wf_set m k b h)

/-- A cell after a write is the written one or one from before. -/
theorem Memory.mem_set (m : Memory) (k : Nat) (b : Byte) (c : Host.Cell) (h : c ∈ m.set k b) : c = (k, b) ∨ c ∈ m := by
  unfold Memory.set at h
  split at h
  · exact .inr (List.mem_of_mem_filter h)
  · rcases (Memory.mem_insertCell _ _ _ c).mp h with h | h
    · exact .inl h
    · exact .inr (List.mem_of_mem_filter h)

/-- A cell after storing a list lies in the range stored, or was there before. -/
theorem Memory.mem_setList (m : Memory) (k : Nat) (bs : List Byte) (c : Host.Cell) (h : c ∈ m.setList k bs) :
    (k ≤ c.1 ∧ c.1 < k + bs.length) ∨ c ∈ m := by
  induction bs generalizing m k with
  | nil => exact .inr h
  | cons b rest ih =>
    rcases ih _ _ h with h | h
    · left; simp only [List.length_cons]; omega
    · rcases Memory.mem_set _ _ _ _ h with rfl | h
      · left; simp
      · exact .inr h

end Sys2Proof.Machine
end

