-- ==== Sys2Proof/Laws/State.lean ====
section
/-! SUPPORT. One lemma per field per update of the state, and reading a register after writing one. -/

namespace Sys2Proof.Machine

variable (s : State) (v : Word) (e : DiagEvent) (k : Nat) (b : Byte) (i : RegIdx) (a : Word)

/-! ### setPc -/
@[simp] theorem State.setPc_r : (s.setPc v).r = s.r := rfl
@[simp] theorem State.setPc_sp : (s.setPc v).sp = s.sp := rfl
@[simp] theorem State.setPc_lr : (s.setPc v).lr = s.lr := rfl
@[simp] theorem State.setPc_pc : (s.setPc v).pc = v := rfl
@[simp] theorem State.setPc_flags : (s.setPc v).flags = s.flags := rfl
@[simp] theorem State.setPc_savedFlags : (s.setPc v).savedFlags = s.savedFlags := rfl
@[simp] theorem State.setPc_mem : (s.setPc v).mem = s.mem := rfl
@[simp] theorem State.setPc_cartLen : (s.setPc v).cartLen = s.cartLen := rfl
@[simp] theorem State.setPc_diagLog : (s.setPc v).diagLog = s.diagLog := rfl
@[simp] theorem State.setPc_bootRomWritable : (s.setPc v).bootRomWritable = s.bootRomWritable := rfl
@[simp] theorem State.setPc_ioReadByte : (s.setPc v).ioReadByte = s.ioReadByte := rfl

/-! ### setLr -/
@[simp] theorem State.setLr_r : (s.setLr v).r = s.r := rfl
@[simp] theorem State.setLr_sp : (s.setLr v).sp = s.sp := rfl
@[simp] theorem State.setLr_lr : (s.setLr v).lr = v := rfl
@[simp] theorem State.setLr_pc : (s.setLr v).pc = s.pc := rfl
@[simp] theorem State.setLr_flags : (s.setLr v).flags = s.flags := rfl
@[simp] theorem State.setLr_savedFlags : (s.setLr v).savedFlags = s.savedFlags := rfl
@[simp] theorem State.setLr_mem : (s.setLr v).mem = s.mem := rfl
@[simp] theorem State.setLr_cartLen : (s.setLr v).cartLen = s.cartLen := rfl
@[simp] theorem State.setLr_diagLog : (s.setLr v).diagLog = s.diagLog := rfl
@[simp] theorem State.setLr_bootRomWritable : (s.setLr v).bootRomWritable = s.bootRomWritable := rfl
@[simp] theorem State.setLr_ioReadByte : (s.setLr v).ioReadByte = s.ioReadByte := rfl

/-! ### report -/
@[simp] theorem State.report_r : (s.report e).r = s.r := rfl
@[simp] theorem State.report_sp : (s.report e).sp = s.sp := rfl
@[simp] theorem State.report_lr : (s.report e).lr = s.lr := rfl
@[simp] theorem State.report_pc : (s.report e).pc = s.pc := rfl
@[simp] theorem State.report_flags : (s.report e).flags = s.flags := rfl
@[simp] theorem State.report_savedFlags : (s.report e).savedFlags = s.savedFlags := rfl
@[simp] theorem State.report_mem : (s.report e).mem = s.mem := rfl
@[simp] theorem State.report_cartLen : (s.report e).cartLen = s.cartLen := rfl
@[simp] theorem State.report_diagLog : (s.report e).diagLog = s.diagLog ++ [e] := rfl
@[simp] theorem State.report_bootRomWritable : (s.report e).bootRomWritable = s.bootRomWritable := rfl
@[simp] theorem State.report_ioReadByte : (s.report e).ioReadByte = s.ioReadByte := rfl

/-! ### poke -/
@[simp] theorem State.poke_r : (s.poke k b).r = s.r := rfl
@[simp] theorem State.poke_sp : (s.poke k b).sp = s.sp := rfl
@[simp] theorem State.poke_lr : (s.poke k b).lr = s.lr := rfl
@[simp] theorem State.poke_pc : (s.poke k b).pc = s.pc := rfl
@[simp] theorem State.poke_flags : (s.poke k b).flags = s.flags := rfl
@[simp] theorem State.poke_savedFlags : (s.poke k b).savedFlags = s.savedFlags := rfl
@[simp] theorem State.poke_mem : (s.poke k b).mem = s.mem.set k b := rfl
@[simp] theorem State.poke_cartLen : (s.poke k b).cartLen = s.cartLen := rfl
@[simp] theorem State.poke_diagLog : (s.poke k b).diagLog = s.diagLog := rfl
@[simp] theorem State.poke_bootRomWritable : (s.poke k b).bootRomWritable = s.bootRomWritable := rfl
@[simp] theorem State.poke_ioReadByte : (s.poke k b).ioReadByte = s.ioReadByte := rfl

/-! ### writeReg: the fields no indexed write reaches (10_state R25) -/
@[simp] theorem State.writeReg_flags : (s.writeReg i v).flags = s.flags := by
  unfold State.writeReg; split_ifs <;> rfl
@[simp] theorem State.writeReg_savedFlags : (s.writeReg i v).savedFlags = s.savedFlags := by
  unfold State.writeReg; split_ifs <;> rfl
@[simp] theorem State.writeReg_mem : (s.writeReg i v).mem = s.mem := by
  unfold State.writeReg; split_ifs <;> rfl
@[simp] theorem State.writeReg_cartLen : (s.writeReg i v).cartLen = s.cartLen := by
  unfold State.writeReg; split_ifs <;> rfl
@[simp] theorem State.writeReg_diagLog : (s.writeReg i v).diagLog = s.diagLog := by
  unfold State.writeReg; split_ifs <;> rfl
@[simp] theorem State.writeReg_bootRomWritable : (s.writeReg i v).bootRomWritable = s.bootRomWritable := by
  unfold State.writeReg; split_ifs <;> rfl
@[simp] theorem State.writeReg_ioReadByte : (s.writeReg i v).ioReadByte = s.ioReadByte := by
  unfold State.writeReg; split_ifs <;> rfl

/-- An index is general, 13, 14 or 15 (10_state R23). -/
theorem RegIdx.cases_on (i : RegIdx) : i.toNat < 13 ∨ i = 13#4 ∨ i = 14#4 ∨ i = 15#4 := by
  revert i; decide

@[simp] theorem State.readReg_sp : s.readReg 13#4 = s.sp := rfl
@[simp] theorem State.readReg_lr : s.readReg 14#4 = s.lr := rfl
@[simp] theorem State.readReg_pc : s.readReg 15#4 = s.pc + 8#32 := rfl

theorem State.readReg_general (h : i.toNat < 13) : s.readReg i = s.r[i.toNat] := dif_pos h

@[simp] theorem State.writeReg_sp : s.writeReg 13#4 v = { s with sp := v } := rfl
@[simp] theorem State.writeReg_lr : s.writeReg 14#4 v = { s with lr := v } := rfl
@[simp] theorem State.writeReg_pc_index : s.writeReg 15#4 v = { s with pc := v &&& 0xFFFFFFFC#32 } := rfl

theorem State.writeReg_general (h : i.toNat < 13) : s.writeReg i v = { s with r := s.r.set i.toNat v } := dif_pos h

/-- The raw slot after an indexed write (10_state R25). -/
theorem State.writeReg_pc : (s.writeReg i v).pc = if i = 15#4 then v &&& 0xFFFFFFFC#32 else s.pc := by
  rcases RegIdx.cases_on i with h | h | h | h
  · have : i ≠ 15#4 := by rintro rfl; simp at h
    simp [State.writeReg_general s v i h, this]
  all_goals subst h; simp

/-- Reading a register other than index 15 after an indexed write (10_state R24, R25). -/
theorem State.readReg_writeReg (j : RegIdx) (hj : j ≠ 15#4) :
    (s.writeReg i v).readReg j = if j = i then v else s.readReg j := by
  have key : ∀ j' : RegIdx, j'.toNat < 13 → j' ≠ 13#4 ∧ j' ≠ 14#4 ∧ j' ≠ 15#4 := by decide
  rcases RegIdx.cases_on i with h | h | h | h
  · rw [State.writeReg_general s v i h]
    rcases RegIdx.cases_on j with h' | h' | h' | h'
    · simp only [State.readReg_general _ _ h', Vector.getElem_set, eq_comm (a := j)]
      simp only [BitVec.toNat_inj]
    · subst h'; simp [State.readReg, Ne.symm (key i h).1]
    · subst h'; simp [State.readReg, Ne.symm (key i h).2.1]
    · exact absurd h' hj
  all_goals
    subst h
    rcases RegIdx.cases_on j with h' | h' | h' | h'
    · simp [State.readReg, h', key j h']
    all_goals first | exact absurd h' hj | (subst h'; simp [State.readReg])

/-- A register other than index 15 does not depend on the raw slot. -/
theorem State.readReg_setPc (hi : i ≠ 15#4) : (s.setPc v).readReg i = s.readReg i := by
  rcases RegIdx.cases_on i with h | h | h | h
  · simp [State.readReg, h]
  · subst h; rfl
  · subst h; rfl
  · exact absurd h hi

theorem State.readReg_setLr : (s.setLr v).readReg i = if i = 14#4 then v else s.readReg i := by
  rcases RegIdx.cases_on i with h | h | h | h
  · have : i ≠ 14#4 := by rintro rfl; simp at h
    simp [State.readReg, h, this]
  all_goals subst h; rfl

end Sys2Proof.Machine
end

