-- ==== Sys2Proof/Laws/Bus.lean ====
section
/-! SUPPORT. The bus: what each operation answers and everything it changes. -/

namespace Sys2Proof.Machine

variable (s : State) (a : Word)

/-! ### Reading one byte -/

/-- A byte read depends on the stored bytes, the image's length and `IO_READ_BYTE`, and on nothing else. -/
theorem State.byteAt_congr {s t : State} (hm : t.mem = s.mem) (hc : t.cartLen = s.cartLen)
    (hi : t.ioReadByte = s.ioReadByte) (a : Word) : t.byteAt a = s.byteAt a := by
  unfold State.byteAt; rw [hm, hc, hi]

@[simp] theorem State.byteAt_setPc (v : Word) : (s.setPc v).byteAt a = s.byteAt a := rfl
@[simp] theorem State.byteAt_setLr (v : Word) : (s.setLr v).byteAt a = s.byteAt a := rfl
@[simp] theorem State.byteAt_report (e : DiagEvent) : (s.report e).byteAt a = s.byteAt a := rfl
@[simp] theorem State.byteAt_withLog (l : List DiagEvent) : State.byteAt { s with diagLog := l } a = s.byteAt a := rfl
@[simp] theorem State.byteAt_withPc (v : Word) : State.byteAt { s with pc := v } a = s.byteAt a := rfl
@[simp] theorem State.byteAt_withFlags (v : Word) : State.byteAt { s with flags := v } a = s.byteAt a := rfl
@[simp] theorem State.byteAt_writeReg (i : RegIdx) (v : Word) : (s.writeReg i v).byteAt a = s.byteAt a :=
  State.byteAt_congr (by simp) (by simp) (by simp) a

@[simp] theorem State.readByte_fst : (s.readByte a).1 = s.byteAt a := rfl
@[simp] theorem State.readByte_snd : (s.readByte a).2 = { s with diagLog := s.diagLog ++ readEvents a } := rfl

/-! ### Reading a half or a word -/

/-- The events of a half read, in the order of its byte reads. -/
def halfReadEvents (a : Word) : List DiagEvent := readEvents a ++ readEvents (a + 1#32)

/-- The events of a word read, in the order of its byte reads. -/
def wordReadEvents (a : Word) : List DiagEvent :=
  readEvents a ++ readEvents (a + 1#32) ++ readEvents (a + 2#32) ++ readEvents (a + 3#32)

/-- A half read answers two bytes, little-endian, and only appends its events. -/
theorem State.readHalf_eq : s.readHalf a =
    (halfOfBytes (s.byteAt a) (s.byteAt (a + 1#32)), { s with diagLog := s.diagLog ++ halfReadEvents a }) := by
  simp [State.readHalf, State.readByte, halfReadEvents]

/-- A word read answers four bytes, little-endian, and only appends its events. -/
theorem State.readWord_eq : s.readWord a =
    (wordOfBytes (s.byteAt a) (s.byteAt (a + 1#32)) (s.byteAt (a + 2#32)) (s.byteAt (a + 3#32)),
      { s with diagLog := s.diagLog ++ wordReadEvents a }) := by
  simp [State.readWord, State.readByte, wordReadEvents]

/-! ### Writing one byte -/

/-- A writable byte has a backing byte, under `byteKey`, below the cartridge. -/
theorem State.writable_key {s : State} {a : Word} (h : s.writable a = true) :
    backingKey a = some (byteKey a) ∧ byteKey a < 0x08000000 := by
  have cases : (regionOf a = .boot ∨ regionOf a = .ewram ∨ regionOf a = .iwram ∨ regionOf a = .palette
      ∨ regionOf a = .oam) ∨ (regionOf a = .vram ∧ regionOffset a < vramSize) := by
    unfold State.writable at h
    split at h <;> simp_all
  rcases cases with (r | r | r | r | r) | ⟨r, ho⟩
  · have := region_boot r; exact ⟨by simp [backingKey, r], by omega⟩
  · have := region_ewram r; exact ⟨by simp [backingKey, r], by omega⟩
  · have := region_iwram r; exact ⟨by simp [backingKey, r], by omega⟩
  · have := region_palette r; exact ⟨by simp [backingKey, r], by omega⟩
  · have := region_oam r; exact ⟨by simp [backingKey, r], by omega⟩
  · have := region_vram r; exact ⟨by simp [backingKey, r, ho], by omega⟩

/-- An address whose key lies below the cartridge reads the stored byte. -/
theorem State.byteAt_of_key {a : Word} {k : Nat} (h : backingKey a = some k) (hk : k < 0x08000000) :
    s.byteAt a = s.mem.get k := by
  have hb := byteKey_of_backingKey h
  cases r : regionOf a
  case cart => have := (region_cart r); omega
  case io => simp [backingKey, r] at h
  case unmapped => simp [backingKey, r] at h
  case vram =>
    have ho : regionOffset a < vramSize := by
      by_contra hn
      simp [backingKey, r, hn] at h
    simp [State.byteAt, r, ho, hb]
  all_goals simp [State.byteAt, r, hb]

/-- An address without that key does not read the stored byte. -/
theorem State.byteAt_set_ne {a : Word} {k : Nat} {b : Byte} {m : Memory} (h : backingKey a ≠ some k) :
    State.byteAt { s with mem := m.set k b } a = State.byteAt { s with mem := m } a := by
  cases r : regionOf a
  case io => simp [State.byteAt, r]
  case unmapped => simp [State.byteAt, r]
  case vram =>
    by_cases ho : regionOffset a < vramSize
    · have hne : byteKey a ≠ k := by simpa [backingKey, r, ho] using h
      simp [State.byteAt, r, ho, Memory.get_set_ne _ _ hne]
    · simp [State.byteAt, r, ho]
  case cart =>
    have hne : byteKey a ≠ k := by simpa [backingKey, r] using h
    simp [State.byteAt, r, Memory.get_set_ne _ _ hne]
  all_goals
    have hne : byteKey a ≠ k := by simpa [backingKey, r] using h
    simp [State.byteAt, r, Memory.get_set_ne _ _ hne]

/-- Everything a byte write does. -/
theorem State.writeByte_eq (b : Byte) : s.writeByte a b =
    { s with
      mem := if s.writable a then s.mem.set (byteKey a) b else s.mem
      diagLog := s.diagLog ++ writeEvents a b } := by
  unfold State.writeByte
  split
  next h =>
    have : writeEvents a b = [] := by
      unfold writeEvents
      rw [if_neg]
      intro r
      simp [State.writable, r] at h
    simp [State.poke, this]
  next => rfl

@[simp] theorem State.writeByte_r (b : Byte) : (s.writeByte a b).r = s.r := by rw [State.writeByte_eq]
@[simp] theorem State.writeByte_sp (b : Byte) : (s.writeByte a b).sp = s.sp := by rw [State.writeByte_eq]
@[simp] theorem State.writeByte_lr (b : Byte) : (s.writeByte a b).lr = s.lr := by rw [State.writeByte_eq]
@[simp] theorem State.writeByte_pc (b : Byte) : (s.writeByte a b).pc = s.pc := by rw [State.writeByte_eq]
@[simp] theorem State.writeByte_flags (b : Byte) : (s.writeByte a b).flags = s.flags := by rw [State.writeByte_eq]
@[simp] theorem State.writeByte_savedFlags (b : Byte) : (s.writeByte a b).savedFlags = s.savedFlags := by
  rw [State.writeByte_eq]
@[simp] theorem State.writeByte_cartLen (b : Byte) : (s.writeByte a b).cartLen = s.cartLen := by
  rw [State.writeByte_eq]
@[simp] theorem State.writeByte_diagLog (b : Byte) :
    (s.writeByte a b).diagLog = s.diagLog ++ writeEvents a b := by rw [State.writeByte_eq]
@[simp] theorem State.writeByte_bootRomWritable (b : Byte) :
    (s.writeByte a b).bootRomWritable = s.bootRomWritable := by rw [State.writeByte_eq]
@[simp] theorem State.writeByte_ioReadByte (b : Byte) : (s.writeByte a b).ioReadByte = s.ioReadByte := by
  rw [State.writeByte_eq]
@[simp] theorem State.readReg_writeByte (b : Byte) (i : RegIdx) :
    (s.writeByte a b).readReg i = s.readReg i := by rw [State.writeByte_eq]; rfl
@[simp] theorem State.writable_writeByte (b : Byte) (a' : Word) :
    (s.writeByte a b).writable a' = s.writable a' := by rw [State.writeByte_eq]; rfl

/-- Reading any byte after writing one: the written byte where the write reached storage and the address reaches
the same backing byte, else the byte from before. -/
theorem State.byteAt_writeByte (b : Byte) (a' : Word) : (s.writeByte a b).byteAt a' =
    if s.writable a = true ∧ backingKey a' = some (byteKey a) then b else s.byteAt a' := by
  rw [State.writeByte_eq]
  by_cases hw : s.writable a = true
  · obtain ⟨hk, hlt⟩ := State.writable_key hw
    by_cases hk' : backingKey a' = some (byteKey a)
    · rw [State.byteAt_of_key _ hk' hlt]
      simp [hw, hk']
    · simp only [hw, if_true, hk', and_false, if_false]
      exact State.byteAt_set_ne { s with diagLog := s.diagLog ++ writeEvents a b } hk'
  · simp only [hw, Bool.false_eq_true, if_false, false_and]
    rfl

/-! ### Writing a half or a word -/

/-- The events of a word write, in the order of its byte writes. -/
def wordWriteEvents (a v : Word) : List DiagEvent :=
  writeEvents a (v.extractLsb' 0 8) ++ writeEvents (a + 1#32) (v.extractLsb' 8 8)
    ++ writeEvents (a + 2#32) (v.extractLsb' 16 8) ++ writeEvents (a + 3#32) (v.extractLsb' 24 8)

variable (v : Word)

@[simp] theorem State.writeWord_r : (s.writeWord a v).r = s.r := by simp [State.writeWord]
@[simp] theorem State.writeWord_sp : (s.writeWord a v).sp = s.sp := by simp [State.writeWord]
@[simp] theorem State.writeWord_lr : (s.writeWord a v).lr = s.lr := by simp [State.writeWord]
@[simp] theorem State.writeWord_pc : (s.writeWord a v).pc = s.pc := by simp [State.writeWord]
@[simp] theorem State.writeWord_flags : (s.writeWord a v).flags = s.flags := by simp [State.writeWord]
@[simp] theorem State.writeWord_savedFlags : (s.writeWord a v).savedFlags = s.savedFlags := by
  simp [State.writeWord]
@[simp] theorem State.writeWord_cartLen : (s.writeWord a v).cartLen = s.cartLen := by simp [State.writeWord]
@[simp] theorem State.writeWord_bootRomWritable : (s.writeWord a v).bootRomWritable = s.bootRomWritable := by
  simp [State.writeWord]
@[simp] theorem State.writeWord_ioReadByte : (s.writeWord a v).ioReadByte = s.ioReadByte := by
  simp [State.writeWord]
@[simp] theorem State.writeWord_diagLog : (s.writeWord a v).diagLog = s.diagLog ++ wordWriteEvents a v := by
  simp [State.writeWord, wordWriteEvents]
@[simp] theorem State.readReg_writeWord (i : RegIdx) : (s.writeWord a v).readReg i = s.readReg i := by
  simp [State.writeWord]
@[simp] theorem State.writable_writeWord (a' : Word) : (s.writeWord a v).writable a' = s.writable a' := by
  simp [State.writeWord]

/-- Reading any byte after writing a word: the last of the four byte writes that reached it, else the byte from
before. -/
theorem State.byteAt_writeWord (a' : Word) : (s.writeWord a v).byteAt a' =
    if s.writable (a + 3#32) = true ∧ backingKey a' = some (byteKey (a + 3#32)) then v.extractLsb' 24 8
    else if s.writable (a + 2#32) = true ∧ backingKey a' = some (byteKey (a + 2#32)) then v.extractLsb' 16 8
    else if s.writable (a + 1#32) = true ∧ backingKey a' = some (byteKey (a + 1#32)) then v.extractLsb' 8 8
    else if s.writable a = true ∧ backingKey a' = some (byteKey a) then v.extractLsb' 0 8
    else s.byteAt a' := by
  simp only [State.writeWord, State.byteAt_writeByte, State.writable_writeByte]

/-- Reading any byte after writing a half. -/
theorem State.byteAt_writeHalf (h : Half) (a' : Word) : (s.writeHalf a h).byteAt a' =
    if s.writable (a + 1#32) = true ∧ backingKey a' = some (byteKey (a + 1#32)) then h.extractLsb' 8 8
    else if s.writable a = true ∧ backingKey a' = some (byteKey a) then h.extractLsb' 0 8
    else s.byteAt a' := by
  simp only [State.writeHalf, State.byteAt_writeByte, State.writable_writeByte]

/-- The bytes of a word put together again. -/
@[simp] theorem wordOfBytes_extract (w : Word) :
    wordOfBytes (w.extractLsb' 0 8) (w.extractLsb' 8 8) (w.extractLsb' 16 8) (w.extractLsb' 24 8) = w := by
  unfold wordOfBytes
  ext i hi
  simp only [BitVec.getElem_append, BitVec.getElem_extractLsb']
  split_ifs <;> (simp only [← BitVec.getLsbD_eq_getElem]; congr 1; omega)

/-- The bytes of a half put together again. -/
@[simp] theorem halfOfBytes_extract (h : Half) : halfOfBytes (h.extractLsb' 0 8) (h.extractLsb' 8 8) = h := by
  unfold halfOfBytes
  ext i hi
  simp only [BitVec.getElem_append, BitVec.getElem_extractLsb']
  split_ifs <;> (simp only [← BitVec.getLsbD_eq_getElem]; congr 1; omega)

end Sys2Proof.Machine
end

