-- ==== Sys2Proof/Laws/Decode.lean ====
section
/-! SUPPORT. The condition codes, and taking words apart into fields and bytes. -/

namespace Sys2Proof

@[simp] theorem Cond.ofBits_toBits (c : Cond) : Cond.ofBits c.toBits = c := by cases c <;> rfl

@[simp] theorem Cond.toBits_ofBits (k : BitVec 4) : (Cond.ofBits k).toBits = k := by revert k; decide

/-- The low field of a concatenation. -/
theorem extractLsb'_append_low {m n : Nat} (x : BitVec m) (y : BitVec n) : (x ++ y).extractLsb' 0 n = y := by
  ext i hi
  simp [BitVec.getElem_extractLsb', BitVec.getLsbD_append, hi]

/-- The high field of a concatenation. -/
theorem extractLsb'_append_high {m n : Nat} (x : BitVec m) (y : BitVec n) : (x ++ y).extractLsb' n m = x := by
  ext i hi
  simp [BitVec.getElem_extractLsb', BitVec.getLsbD_append, BitVec.getLsbD_eq_getElem hi]

/-- Two bytes are the bytes of the half they make. -/
theorem bytesOfHalf_halfOfBytes (b0 b1 : Byte) : bytesOfHalf (halfOfBytes b0 b1) = [b0, b1] := by
  unfold bytesOfHalf halfOfBytes
  rw [extractLsb'_append_low (m := 8) (n := 8) b1 b0, extractLsb'_append_high (m := 8) (n := 8) b1 b0]

/-! ### Fields and concatenations as numbers: the equations that decoding an encoded instruction rests on -/

/-- A concatenation as a number. -/
theorem toNat_append_eq {m n : Nat} (x : BitVec m) (y : BitVec n) : (x ++ y).toNat = x.toNat * 2 ^ n + y.toNat := by
  rw [BitVec.toNat_append, ← Nat.shiftLeft_add_eq_or_of_lt y.isLt, Nat.shiftLeft_eq]

/-- A field, from the number it is part of. -/
theorem field_eq_of_toNat {n : Nat} (x : BitVec n) (off len : Nat) (v : BitVec len)
    (h : x.toNat / 2 ^ off % 2 ^ len = v.toNat) : x.extractLsb' off len = v := by
  apply BitVec.eq_of_toNat_eq
  rw [BitVec.extractLsb'_toNat, Nat.shiftRight_eq_div_pow, h]

/-- A bit, from the number it is part of. -/
theorem bit_eq_of_toNat {n : Nat} (x : BitVec n) (k : Nat) (b : Bool) (h : x.toNat / 2 ^ k % 2 = b.toNat) :
    x.getLsbD k = b := by
  rw [← BitVec.testBit_toNat, Nat.testBit_eq_decide_div_mod_eq, h]
  cases b <;> rfl

/-- Two bytes as a number, little-endian (20_memory R71). -/
theorem toNat_halfOfBytes (b0 b1 : Byte) : (halfOfBytes b0 b1).toNat = b0.toNat + 2 ^ 8 * b1.toNat := by
  have h : (halfOfBytes b0 b1).toNat = b1.toNat * 2 ^ 8 + b0.toNat := toNat_append_eq b1 b0
  omega

/-- Four bytes as a number, little-endian (20_memory R72). -/
theorem toNat_wordOfBytes (b0 b1 b2 b3 : Byte) : (wordOfBytes b0 b1 b2 b3).toNat =
    b0.toNat + 2 ^ 8 * b1.toNat + 2 ^ 16 * b2.toNat + 2 ^ 24 * b3.toNat := by
  show (b3 ++ b2 ++ b1 ++ b0 : BitVec (8 + 8 + 8 + 8)).toNat = _
  simp only [toNat_append_eq]
  omega

/-- The branch word (30_encoding R114) as a number. -/
theorem toNat_encodeBranch (c : Cond) (link : BitVec 1) (off24 : BitVec 24) : (encodeBranch c link off24).toNat =
    c.toBits.toNat * 2 ^ 28 + 5 * 2 ^ 25 + link.toNat * 2 ^ 24 + off24.toNat := by
  show (c.toBits ++ 0b101#3 ++ link ++ off24 : BitVec (4 + 3 + 1 + 24)).toNat = _
  simp only [toNat_append_eq, BitVec.toNat_ofNat]
  omega

/-- The single-data-transfer word (30_encoding R116) as a number. -/
theorem toNat_encodeTransfer (c : Cond) (byteBit loadBit : BitVec 1) (x : Transfer) :
    (encodeTransfer c byteBit loadBit x).toNat = c.toBits.toNat * 2 ^ 28 + 1 * 2 ^ 26
      + (match x.offset with | .imm _ => 2 ^ 25 | .zero => 0)
      + (match x.index with | .pre _ => 2 ^ 24 | .post => 0)
      + (match x.dir with | .up => 2 ^ 23 | .down => 0)
      + byteBit.toNat * 2 ^ 22
      + (match x.index with | .pre wb => wb.toNat * 2 ^ 21 | .post => 0)
      + loadBit.toNat * 2 ^ 20 + x.rn.toNat * 2 ^ 16 + x.rd.toNat * 2 ^ 12
      + (match x.offset with | .imm v => v.toNat | .zero => 0) := by
  obtain ⟨rn, rd, offset, dir, index⟩ := x
  unfold encodeTransfer
  simp only [toNat_append_eq]
  cases offset <;> cases dir <;> cases index <;> (try simp only [BitVec.toNat_ofNat, BitVec.toNat_ofBool]) <;> omega

/-- The data-processing word (30_encoding R119) as a number. -/
theorem toNat_encodeDataProcessing (c : Cond) (opcode rn rd : BitVec 4) (o : Operand2) :
    (encodeDataProcessing c opcode rn rd o).toNat = c.toBits.toNat * 2 ^ 28
      + (match o with | .imm _ _ => 2 ^ 25 | .reg _ => 0)
      + opcode.toNat * 2 ^ 21 + rn.toNat * 2 ^ 16 + rd.toNat * 2 ^ 12
      + (match o with | .imm rot imm8 => rot.toNat * 2 ^ 8 + imm8.toNat | .reg rm => rm.toNat) := by
  unfold encodeDataProcessing
  simp only [toNat_append_eq]
  cases o <;> simp only [encodeOperand2, toNat_append_eq, BitVec.toNat_ofNat] <;> omega

/-- Decoding the bytes of a word reads the word. -/
theorem decode_bytesOfWord (w : Word) (rest : List Byte) :
    decode .arm (bytesOfWord w ++ rest) =
      .ok (decodeArm (wordOfBytes (w.extractLsb' 0 8) (w.extractLsb' 8 8) (w.extractLsb' 16 8) (w.extractLsb' 24 8)),
        rest) := rfl

/-- Decoding the bytes of a half reads the half. -/
theorem decode_bytesOfHalf (h : Half) (rest : List Byte) :
    decode .thumb (bytesOfHalf h ++ rest) =
      .ok (decodeThumb (halfOfBytes (h.extractLsb' 0 8) (h.extractLsb' 8 8)), rest) := rfl

end Sys2Proof
end

