-- ==== Sys2Proof/Laws/Exec.lean ====
section
/-! SUPPORT. What each instruction does, as one equation each, and what a step is. Later proofs cite these and unfold
no meaning. -/

namespace Sys2Proof.Machine

variable (s : State)

/-- Predication always answers next (40_condition_and_step R156). -/
theorem State.predicated_eq (c : Cond) (effect : State → State) :
    s.predicated c effect = .next (if condPassed c s.flags then effect s else s) := by
  unfold State.predicated; split <;> rfl

theorem State.predicated_passed {s : State} {c : Cond} (h : condPassed c s.flags = true) (effect : State → State) :
    s.predicated c effect = .next (effect s) := by simp [State.predicated, h]

theorem State.predicated_failed {s : State} {c : Cond} (h : condPassed c s.flags = false) (effect : State → State) :
    s.predicated c effect = .next s := by simp [State.predicated, h]

theorem exec_b (c : Cond) (off24 : BitVec 24) : exec (.b c off24) s =
    .next (if condPassed c s.flags then s.setPc (s.armTarget off24) else s) := by
  unfold exec execB; exact State.predicated_eq s c _

theorem exec_bl (c : Cond) (off24 : BitVec 24) : exec (.bl c off24) s =
    .next (if condPassed c s.flags then (s.setLr s.pc).setPc (s.armTarget off24) else s) := by
  unfold exec execBl; exact State.predicated_eq s c _

theorem exec_ldr (c : Cond) (x : Transfer) : exec (.ldr c x) s =
    .next (if condPassed c s.flags then
      ((s.readWord (s.transferAddr x)).2.writeReg x.rd (s.readWord (s.transferAddr x)).1).writeBack x
        (s.transferUpd x) else s) := by
  unfold exec execLdr; exact State.predicated_eq s c _

theorem exec_ldrb (c : Cond) (x : Transfer) : exec (.ldrb c x) s =
    .next (if condPassed c s.flags then
      ((s.readByte (s.transferAddr x)).2.writeReg x.rd ((s.byteAt (s.transferAddr x)).setWidth 32)).writeBack x
        (s.transferUpd x) else s) := by
  unfold exec execLdrb; exact State.predicated_eq s c _

theorem exec_str (c : Cond) (x : Transfer) : exec (.str c x) s =
    .next (if condPassed c s.flags then
      (s.writeWord (s.transferAddr x) (s.readReg x.rd)).writeBack x (s.transferUpd x) else s) := by
  unfold exec execStr; exact State.predicated_eq s c _

theorem exec_strb (c : Cond) (x : Transfer) : exec (.strb c x) s =
    .next (if condPassed c s.flags then
      (s.writeByte (s.transferAddr x) ((s.readReg x.rd).extractLsb' 0 8)).writeBack x (s.transferUpd x) else s) := by
  unfold exec execStrb; exact State.predicated_eq s c _

theorem exec_mov (c : Cond) (rd : RegIdx) (o : Operand2) : exec (.mov c rd o) s =
    .next (if condPassed c s.flags then s.writeReg rd (s.operand2 o) else s) := by
  unfold exec execMov; exact State.predicated_eq s c _

theorem exec_add (c : Cond) (rd rn : RegIdx) (o : Operand2) : exec (.add c rd rn o) s =
    .next (if condPassed c s.flags then s.writeReg rd (s.readReg rn + s.operand2 o) else s) := by
  unfold exec execAdd; exact State.predicated_eq s c _

theorem exec_sub (c : Cond) (rd rn : RegIdx) (o : Operand2) : exec (.sub c rd rn o) s =
    .next (if condPassed c s.flags then s.writeReg rd (s.readReg rn - s.operand2 o) else s) := by
  unfold exec execSub; exact State.predicated_eq s c _

theorem exec_cmp (c : Cond) (rn : RegIdx) (o : Operand2) : exec (.cmp c rn o) s =
    .next (if condPassed c s.flags then
      { s with flags := compareFlags s.flags (s.readReg rn) (s.operand2 o) } else s) := by
  unfold exec execCmp; exact State.predicated_eq s c _

theorem exec_armUnhandled (c : Cond) (body : BitVec 28) : exec (.armUnhandled c body) s =
    .next (if condPassed c s.flags then
      s.report (.unimplementedArm (c.toBits ++ body : BitVec (4 + 28)) s.armAddress) else s) := by
  unfold exec execArmUnhandled; exact State.predicated_eq s c _

theorem exec_tMovImm (rd : LowReg) (imm8 : Byte) : exec (.tMovImm rd imm8) s =
    .next (s.writeReg (rd.setWidth 4) (imm8.setWidth 32)) := rfl

theorem exec_tBcond (c : Cond) (off8 : Byte) : exec (.tBcond c off8) s =
    .next (if condPassed c s.flags then s.setPc (s.pc + thumbCondOffset off8) else s) := by
  unfold exec execTBcond; exact State.predicated_eq s c _

theorem exec_tB (off11 : BitVec 11) : exec (.tB off11) s = .next (s.setPc (s.pc + thumbBranchOffset off11)) := rfl

theorem exec_tBlHi (hi11 : BitVec 11) : exec (.tBlHi hi11) s = .next (s.setLr (s.pc + thumbHighOffset hi11)) := rfl

theorem exec_tBlLo (lo11 : BitVec 11) : exec (.tBlLo lo11) s =
    .next ((s.setLr (s.pc ||| 1#32)).setPc (s.lr + thumbLowOffset lo11)) := rfl

theorem exec_tUnhandled (h : Half) : exec (.tUnhandled h) s =
    .next (s.report (.unimplementedThumb h s.thumbAddress)) := rfl

/-! ### Write-back -/

theorem State.writeBack_eq (x : Transfer) (upd : Word) :
    s.writeBack x upd = if Indexing.writesBack x.index then s.writeReg x.rn upd else s := rfl

@[simp] theorem State.writeBack_flags (x : Transfer) (v : Word) : (s.writeBack x v).flags = s.flags := by
  unfold State.writeBack; split <;> simp
@[simp] theorem State.writeBack_savedFlags (x : Transfer) (v : Word) :
    (s.writeBack x v).savedFlags = s.savedFlags := by unfold State.writeBack; split <;> simp
@[simp] theorem State.writeBack_mem (x : Transfer) (v : Word) : (s.writeBack x v).mem = s.mem := by
  unfold State.writeBack; split <;> simp
@[simp] theorem State.writeBack_cartLen (x : Transfer) (v : Word) : (s.writeBack x v).cartLen = s.cartLen := by
  unfold State.writeBack; split <;> simp
@[simp] theorem State.writeBack_diagLog (x : Transfer) (v : Word) : (s.writeBack x v).diagLog = s.diagLog := by
  unfold State.writeBack; split <;> simp
@[simp] theorem State.writeBack_bootRomWritable (x : Transfer) (v : Word) :
    (s.writeBack x v).bootRomWritable = s.bootRomWritable := by unfold State.writeBack; split <;> simp
@[simp] theorem State.writeBack_ioReadByte (x : Transfer) (v : Word) :
    (s.writeBack x v).ioReadByte = s.ioReadByte := by unfold State.writeBack; split <;> simp
@[simp] theorem State.byteAt_writeBack (x : Transfer) (v a : Word) : (s.writeBack x v).byteAt a = s.byteAt a :=
  State.byteAt_congr (by simp) (by simp) (by simp) a

/-- A register other than index 15 after the write-back. -/
theorem State.readReg_writeBack (x : Transfer) (v : Word) (j : RegIdx) (hj : j ≠ 15#4) :
    (s.writeBack x v).readReg j = if Indexing.writesBack x.index = true ∧ j = x.rn then v else s.readReg j := by
  unfold State.writeBack
  split
  next h => rw [State.readReg_writeReg _ _ _ _ hj]; simp [h]
  next h => simp [h]

/-- The raw slot after the write-back. -/
theorem State.writeBack_pc (x : Transfer) (v : Word) : (s.writeBack x v).pc =
    if Indexing.writesBack x.index = true ∧ x.rn = 15#4 then v &&& 0xFFFFFFFC#32 else s.pc := by
  unfold State.writeBack
  split
  next h => rw [State.writeReg_pc]; simp [h]
  next h => simp [h]

/-! ### The step -/

/-- The fetch in Thumb (40_condition_and_step R155). -/
theorem State.fetch_thumb {s : State} (h : flagT s.flags = true) : s.fetch =
    (decodeThumb (halfOfBytes (s.byteAt s.pc) (s.byteAt (s.pc + 1#32))),
      { s with pc := s.pc + 2#32, diagLog := s.diagLog ++ halfReadEvents s.pc }) := by
  unfold State.fetch
  rw [if_pos h, State.readHalf_eq]
  rfl

/-- The fetch in ARM (40_condition_and_step R155). -/
theorem State.fetch_arm {s : State} (h : flagT s.flags = false) : s.fetch =
    (decodeArm (wordOfBytes (s.byteAt s.pc) (s.byteAt (s.pc + 1#32)) (s.byteAt (s.pc + 2#32))
      (s.byteAt (s.pc + 3#32))),
      { s with pc := s.pc + 4#32, diagLog := s.diagLog ++ wordReadEvents s.pc }) := by
  unfold State.fetch
  rw [if_neg (by simp [h]), State.readWord_eq]
  rfl

end Sys2Proof.Machine
end

