-- ==== Sys2Proof/Laws/PerInstr.lean ====
section
/-! SUPPORT. Statements about every instruction as syntax, one lemma per constructor. -/

namespace Sys2Proof.Laws.EncodedLength

/-- An encoded instruction has the length its encoding gives it (30_encoding R110): 4 bytes or 2. -/
def Statement (i : Instr) : Prop := (encode i).length = i.isa.bytes

theorem b (c : Cond) (off24 : BitVec 24) : Statement (.b c off24) := rfl
theorem bl (c : Cond) (off24 : BitVec 24) : Statement (.bl c off24) := rfl
theorem ldr (c : Cond) (x : Transfer) : Statement (.ldr c x) := rfl
theorem ldrb (c : Cond) (x : Transfer) : Statement (.ldrb c x) := rfl
theorem str (c : Cond) (x : Transfer) : Statement (.str c x) := rfl
theorem strb (c : Cond) (x : Transfer) : Statement (.strb c x) := rfl
theorem mov (c : Cond) (rd : RegIdx) (op2 : Operand2) : Statement (.mov c rd op2) := rfl
theorem add (c : Cond) (rd rn : RegIdx) (op2 : Operand2) : Statement (.add c rd rn op2) := rfl
theorem sub (c : Cond) (rd rn : RegIdx) (op2 : Operand2) : Statement (.sub c rd rn op2) := rfl
theorem cmp (c : Cond) (rn : RegIdx) (op2 : Operand2) : Statement (.cmp c rn op2) := rfl
theorem armUnhandled (c : Cond) (body : BitVec 28) : Statement (.armUnhandled c body) := rfl
theorem tMovImm (rd : LowReg) (imm8 : Byte) : Statement (.tMovImm rd imm8) := rfl
theorem tBcond (c : Cond) (off8 : Byte) : Statement (.tBcond c off8) := rfl
theorem tB (off11 : BitVec 11) : Statement (.tB off11) := rfl
theorem tBlHi (hi11 : BitVec 11) : Statement (.tBlHi hi11) := rfl
theorem tBlLo (lo11 : BitVec 11) : Statement (.tBlLo lo11) := rfl
theorem tUnhandled (h : Half) : Statement (.tUnhandled h) := rfl

end Sys2Proof.Laws.EncodedLength
end

