-- ==== Sys2Proof/Laws/SpecTerms.lean ====
section
/-! SUPPORT. The terms the statements are written in, in terms of the model's operations. -/

namespace Sys2Proof.Spec

open Sys2Proof.Machine

theorem byteAddr_eq (a : Word) (k : Nat) : byteAddr a k = a + BitVec.ofNat 32 k := by
  apply BitVec.eq_of_toNat_eq; simp [byteAddr]

theorem unmappedReads_byte (a : Word) : unmappedReads a 1 = readEvents a := by
  simp [unmappedReads, List.range_succ, readEvents, byteAddr_eq]

theorem unmappedReads_half (a : Word) : unmappedReads a 2 = halfReadEvents a := by
  simp [unmappedReads, List.range_succ, readEvents, halfReadEvents, byteAddr_eq]

theorem unmappedReads_word (a : Word) : unmappedReads a 4 = wordReadEvents a := by
  simp [unmappedReads, List.range_succ, readEvents, wordReadEvents, byteAddr_eq]

theorem unmappedWrites_byte (a : Word) (b : Byte) : unmappedWrites a [b] = writeEvents a b := by
  simp [unmappedWrites, List.range_succ, writeEvents, byteAddr_eq]

theorem unmappedWrites_word (a v : Word) : unmappedWrites a (wordBytes v) = wordWriteEvents a v := by
  simp [unmappedWrites, wordBytes, List.range_succ, writeEvents, wordWriteEvents, byteAddr_eq]

theorem writesBack_iff (x : Transfer) : Indexing.writesBack x.index = true ↔ WritesBack x := by
  unfold WritesBack Indexing.writesBack
  cases x.index <;> simp

/-- From a writable address, sharing a byte is reaching its key. -/
theorem sharesByte_iff {s : State} {a b : Word} (h : s.writable a = true) :
    SharesByte b a ↔ backingKey b = some (byteKey a) := by
  have ha := (State.writable_key h).1
  constructor
  · rintro ⟨k, hb, hk⟩
    rw [ha] at hk
    rw [hb, ← hk]
  · exact fun hb => ⟨_, hb, ha⟩

theorem wordNat_eq (s : State) (a : Word) : wordNat s a = (s.readWord a).1.toNat := by
  rw [State.readWord_eq, toNat_wordOfBytes]
  simp [wordNat, byteAddr_eq]

theorem halfNat_eq (s : State) (a : Word) : halfNat s a = (s.readHalf a).1.toNat := by
  rw [State.readHalf_eq, toNat_halfOfBytes]
  simp [halfNat, byteAddr_eq]

/-- The fetch in ARM, in the statements' terms. -/
theorem fetch_eq_armFetched {s : State} (h : flagT s.flags = false) :
    s.fetch = (decodeArm (BitVec.ofNat 32 (wordNat s s.pc)), armFetched s) := by
  rw [wordNat_eq, BitVec.ofNat_toNat, BitVec.setWidth_eq, State.readWord_eq, State.fetch_arm h]
  simp [armFetched, byteAddr_eq, unmappedReads_word]

/-- The fetch in Thumb, in the statements' terms. -/
theorem fetch_eq_thumbFetched {s : State} (h : flagT s.flags = true) :
    s.fetch = (decodeThumb (BitVec.ofNat 16 (halfNat s s.pc)), thumbFetched s) := by
  rw [halfNat_eq, BitVec.ofNat_toNat, BitVec.setWidth_eq, State.readHalf_eq, State.fetch_thumb h]
  simp [thumbFetched, byteAddr_eq, unmappedReads_half]

/-- An indexed write of 15 clears the two low bits (10_state R25). -/
theorem toNat_clearLowBits (v : Word) : (v &&& 0xFFFFFFFC#32).toNat = v.toNat - v.toNat % 4 := by
  have h : v &&& 0xFFFFFFFC#32 = (v >>> 2) <<< 2 := by
    apply BitVec.eq_of_getLsbD_eq
    intro i hi
    simp only [BitVec.getLsbD_and, BitVec.getLsbD_shiftLeft, BitVec.getLsbD_ushiftRight]
    interval_cases i <;> simp
  rw [h, BitVec.toNat_shiftLeft, BitVec.toNat_ushiftRight, Nat.shiftLeft_eq, Nat.shiftRight_eq_div_pow]
  omega

end Sys2Proof.Spec
end

