-- ==== Sys2Proof/Laws/WellFormedState.lean ====
section
/-! SUPPORT. Every operation that touches memory keeps a state well-formed, and the host's moves do. -/

namespace Sys2Proof.Machine

theorem State.wf_iff (s : State) :
    s.wf = true ↔ s.mem.wf = true ∧ ∀ c ∈ s.mem, backedKey s.cartLen c.1 = true := by
  simp [State.wf, List.all_eq_true]

/-- Well-formedness is about the stored bytes and the image's length only. -/
theorem State.wf_congr {s t : State} (hm : t.mem = s.mem) (hc : t.cartLen = s.cartLen) (h : s.wf = true) :
    t.wf = true := by
  unfold State.wf at *; rw [hm, hc]; exact h

/-- The key of a writable byte lies in a buffer. -/
theorem backedKey_of_writable {s : State} {a : Word} (h : s.writable a = true) (n : Nat) :
    backedKey n (byteKey a) = true := by
  have cases : (regionOf a = .boot ∨ regionOf a = .ewram ∨ regionOf a = .iwram ∨ regionOf a = .palette
      ∨ regionOf a = .oam) ∨ (regionOf a = .vram ∧ regionOffset a < vramSize) := by
    unfold State.writable at h
    split at h <;> simp_all
  simp only [backedKey, Bool.or_eq_true, Bool.and_eq_true, decide_eq_true_iff]
  rcases cases with (r | r | r | r | r) | ⟨r, ho⟩
  · have := region_boot r; omega
  · have := region_ewram r; omega
  · have := region_iwram r; omega
  · have := region_palette r; omega
  · have := region_oam r; omega
  · have := region_vram r
    unfold vramSize at ho
    omega

/-- A longer image backs every key a shorter one does. -/
theorem backedKey_mono {m n k : Nat} (h : m ≤ n) (hk : backedKey m k = true) : backedKey n k = true := by
  simp only [backedKey, Bool.or_eq_true, Bool.and_eq_true, decide_eq_true_iff] at *
  omega

theorem State.wf_writeByte (s : State) (a : Word) (b : Byte) (h : s.wf = true) : (s.writeByte a b).wf = true := by
  rw [State.writeByte_eq]
  by_cases hw : s.writable a = true
  · rw [State.wf_iff] at h ⊢
    simp only [hw, if_true]
    refine ⟨Memory.wf_set _ _ _ h.1, fun c hc => ?_⟩
    rcases Memory.mem_set _ _ _ _ hc with rfl | hc
    · exact backedKey_of_writable hw _
    · exact h.2 c hc
  · exact State.wf_congr (s := s) (by simp [hw]) rfl h

theorem State.wf_writeHalf (s : State) (a : Word) (v : Half) (h : s.wf = true) : (s.writeHalf a v).wf = true :=
  State.wf_writeByte _ _ _ (State.wf_writeByte _ _ _ h)

theorem State.wf_writeWord (s : State) (a v : Word) (h : s.wf = true) : (s.writeWord a v).wf = true :=
  State.wf_writeByte _ _ _ (State.wf_writeByte _ _ _ (State.wf_writeByte _ _ _ (State.wf_writeByte _ _ _ h)))

theorem State.wf_readByte (s : State) (a : Word) (h : s.wf = true) : (s.readByte a).2.wf = true :=
  State.wf_congr (s := s) rfl rfl h

theorem State.wf_readWord (s : State) (a : Word) (h : s.wf = true) : (s.readWord a).2.wf = true := by
  rw [State.readWord_eq]; exact State.wf_congr (s := s) rfl rfl h

theorem State.wf_writeReg (s : State) (i : RegIdx) (v : Word) (h : s.wf = true) : (s.writeReg i v).wf = true :=
  State.wf_congr (s := s) (by simp) (by simp) h

theorem State.wf_writeBack (s : State) (x : Transfer) (v : Word) (h : s.wf = true) : (s.writeBack x v).wf = true :=
  State.wf_congr (s := s) (by simp) (by simp) h

/-- The key of any backed byte lies in a buffer, or in an image long enough to hold it. -/
theorem backedKey_of_backingKey {a : Word} {k n : Nat} (h : backingKey a = some k)
    (hn : regionOf a = .cart → regionOffset a < n) : backedKey n k = true := by
  have hk := byteKey_of_backingKey h
  simp only [backedKey, Bool.or_eq_true, Bool.and_eq_true, decide_eq_true_iff]
  cases r : regionOf a
  case boot => have := region_boot r; omega
  case ewram => have := region_ewram r; omega
  case iwram => have := region_iwram r; omega
  case palette => have := region_palette r; omega
  case oam => have := region_oam r; omega
  case cart => have := region_cart r; have := hn r; omega
  case io => simp [backingKey, r] at h
  case unmapped => simp [backingKey, r] at h
  case vram =>
    have := region_vram r
    have ho : regionOffset a < vramSize := by
      by_contra hno
      simp [backingKey, r, hno] at h
    unfold vramSize at ho
    omega

theorem State.wf_hostPlaceByte (s : State) (a : Word) (b : Byte) (h : s.wf = true) :
    (s.hostPlaceByte a b).wf = true := by
  unfold State.hostPlaceByte
  split
  · exact h
  next k hk =>
    rw [State.wf_iff] at h ⊢
    refine ⟨Memory.wf_set _ _ _ h.1, fun c hc => ?_⟩
    rcases Memory.mem_set _ _ _ _ hc with rfl | hc
    · refine backedKey_of_backingKey hk fun r => ?_
      simp only [r, if_true]; omega
    · refine backedKey_mono ?_ (h.2 c hc)
      dsimp only; split <;> omega

theorem State.wf_hostPlaceBytes (s : State) (a : Word) (bs : List Byte) (h : s.wf = true) :
    (s.hostPlaceBytes a bs).wf = true := by
  induction bs generalizing s a with
  | nil => exact h
  | cons b rest ih => exact ih _ _ (State.wf_hostPlaceByte _ _ _ h)

theorem State.wf_hostLoadCart (s : State) (image : Option (List Byte)) (h : s.wf = true) :
    (s.hostLoadCart image).wf = true := by
  cases image with
  | none => exact h
  | some image =>
    rw [State.wf_iff] at h ⊢
    refine ⟨Memory.wf_setList _ _ _ (Memory.wf_filter _ _ h.1), fun c hc => ?_⟩
    simp only [State.hostLoadCart] at hc ⊢
    rcases Memory.mem_setList _ _ _ _ hc with hc | hc
    · simp only [backedKey, Bool.or_eq_true, Bool.and_eq_true, decide_eq_true_iff]; omega
    · have hlt := (List.mem_filter.mp hc).2
      have hb := h.2 c (List.mem_of_mem_filter hc)
      simp only [backedKey, Bool.or_eq_true, Bool.and_eq_true, decide_eq_true_iff] at *
      omega

/-- The memory at reset is in the canonical form, whatever the images. -/
theorem resetMemory_wf (p : LaunchParams) : (resetMemory p).wf = true :=
  Memory.wf_setList _ _ _ (Memory.wf_setList _ _ _ Memory.wf_nil)

/-- The reset state's memory is in the canonical form. -/
theorem reset_mem_wf : State.reset.mem.wf = true := resetMemory_wf _

/-- An invariant that every step keeps holds of every state a run passes through. -/
theorem Reaches.induction {Inv : State → Prop} (hstep : ∀ s t, Inv s → step s = .next t → Inv t)
    {s t : State} (hr : Reaches s t) (hs : Inv s) : Inv t := by
  induction hr with
  | refl => exact hs
  | tail _ h ih => exact hstep _ _ ih h

end Sys2Proof.Machine
end

