-- ==== Sys2Proof/Tests/Slice0.lean ====
section
/-! SUPPORT. Tests: ill-formed terms, the decoder on words written out from 30_encoding, single steps from
95_test_vectors, and a witness for the hypotheses of every statement that has some. -/

namespace Sys2Proof.Tests

open Sys2Proof.Machine Sys2Proof.Spec

/-! ### Small states -/

/-- The ARM word `w` at 0x08000000, where `pc` is; else the reset state. -/
def arm (w : Nat) : State := State.reset.withFetchWord 32 w

/-- The Thumb half `h` at 0x08000000, where `pc` is, `T = 1`; else the reset state. -/
def thumb (h : Nat) : State := State.reset.withFetchWord 16 h

/-- A step answers next, and the state after it passes the check. -/
def stepGives (s : State) (check : State → Bool) : Bool :=
  match step s with
  | .next t => check t
  | .fault _ => false
  | .refused _ => false

/-- The state after a step. -/
def after (s : State) : State :=
  match step s with
  | .next t => t
  | .fault _ => s
  | .refused _ => s

/-- The state with N, Z, C, V set. -/
def withNZCV (s : State) (n z c v : Bool) : State := { s with flags := setNZCV s.flags n z c v }

/-- The memory of the load vectors (95_test_vectors 2.4). -/
def withLoadData (s : State) : State :=
  ((s.writeWord 0x03000000#32 0x11111111#32).writeWord 0x03000004#32 0xDEADBEEF#32).writeWord 0x03000008#32 0x80C0E0F0#32

/-! ### Well-formedness: one ill-formed term for each check -/

theorem test_wf_refuses_branch_class : (Instr.armUnhandled .al 0xA000000#28).wf = false := by decide
theorem test_wf_refuses_transfer_class : (Instr.armUnhandled .al 0x4000000#28).wf = false := by decide
theorem test_wf_refuses_sub_opcode : (Instr.armUnhandled .al 0x0400000#28).wf = false := by decide
theorem test_wf_refuses_add_opcode : (Instr.armUnhandled .al 0x0800000#28).wf = false := by decide
theorem test_wf_refuses_cmp_opcode : (Instr.armUnhandled .al 0x1400000#28).wf = false := by decide
theorem test_wf_refuses_mov_opcode : (Instr.armUnhandled .al 0x1A00000#28).wf = false := by decide
theorem test_wf_refuses_thumb_mov : (Instr.tUnhandled 0x2000#16).wf = false := by decide
theorem test_wf_refuses_thumb_bcond : (Instr.tUnhandled 0xD800#16).wf = false := by decide
theorem test_wf_refuses_thumb_b : (Instr.tUnhandled 0xE000#16).wf = false := by decide
theorem test_wf_refuses_thumb_bl_hi : (Instr.tUnhandled 0xF000#16).wf = false := by decide
theorem test_wf_refuses_thumb_bl_lo : (Instr.tUnhandled 0xF800#16).wf = false := by decide

/-! ### Decoding: every constructor, fields written out from 30_encoding -/

/-- R114: `cond 101 L off24`. -/
theorem test_decode_b : decodeArm (0b1110#4 ++ 0b101#3 ++ 0b0#1 ++ 0x000001#24 : BitVec (4 + 3 + 1 + 24)) =
    .b .al 1#24 := by decide

theorem test_decode_bl : decodeArm (0b0001#4 ++ 0b101#3 ++ 0b1#1 ++ 0xFFFFFF#24 : BitVec (4 + 3 + 1 + 24)) =
    .bl .ne 0xFFFFFF#24 := by decide

/-- R116: `cond 01 I P U B W L Rn Rd offset12`; L3 of the vectors, 0xE7B10004. -/
theorem test_decode_ldr : decodeArm (0b1110#4 ++ 0b01#2 ++ 0b1#1 ++ 0b1#1 ++ 0b1#1 ++ 0b0#1 ++ 0b1#1 ++ 0b1#1
      ++ 0x1#4 ++ 0x0#4 ++ 0x004#12 : BitVec (4 + 2 + 1 + 1 + 1 + 1 + 1 + 1 + 4 + 4 + 12)) =
    .ldr .al ⟨1#4, 0#4, .imm 4#12, .up, .pre true⟩ := by decide

/-- L17's shape with `I = 0`, `U = 0`: the offset acts as zero (R117). -/
theorem test_decode_ldrb : decodeArm (0b1110#4 ++ 0b01#2 ++ 0b0#1 ++ 0b1#1 ++ 0b0#1 ++ 0b1#1 ++ 0b0#1 ++ 0b1#1
      ++ 0x1#4 ++ 0xF#4 ++ 0xABC#12 : BitVec (4 + 2 + 1 + 1 + 1 + 1 + 1 + 1 + 4 + 4 + 12)) =
    .ldrb .al ⟨1#4, 15#4, .zero, .down, .pre false⟩ := by decide

/-- S6v, 0xE682F004: post-indexed; `W` is not looked at. -/
theorem test_decode_str : decodeArm (0b1110#4 ++ 0b01#2 ++ 0b1#1 ++ 0b0#1 ++ 0b1#1 ++ 0b0#1 ++ 0b0#1 ++ 0b0#1
      ++ 0x2#4 ++ 0xF#4 ++ 0x004#12 : BitVec (4 + 2 + 1 + 1 + 1 + 1 + 1 + 1 + 4 + 4 + 12)) =
    .str .al ⟨2#4, 15#4, .imm 4#12, .up, .post⟩ := by decide

theorem test_decode_strb : decodeArm (0b1110#4 ++ 0b01#2 ++ 0b1#1 ++ 0b0#1 ++ 0b1#1 ++ 0b1#1 ++ 0b1#1 ++ 0b0#1
      ++ 0x1#4 ++ 0x0#4 ++ 0x001#12 : BitVec (4 + 2 + 1 + 1 + 1 + 1 + 1 + 1 + 4 + 4 + 12)) =
    .strb .al ⟨1#4, 0#4, .imm 1#12, .up, .post⟩ := by decide

/-- R119: `cond 00 I opcode S Rn Rd operand2`; DP7, 0xE3A004FF. -/
theorem test_decode_mov : decodeArm (0b1110#4 ++ 0b00#2 ++ 0b1#1 ++ 0b1101#4 ++ 0b0#1 ++ 0x0#4 ++ 0x0#4 ++ 0x4#4
      ++ 0xFF#8 : BitVec (4 + 2 + 1 + 4 + 1 + 4 + 4 + 4 + 8)) = .mov .al 0#4 (.imm 4#4 0xFF#8) := by decide

/-- DP12, 0xE0810002, with `S` and the shift bits set: they are ignored (R119, R122). -/
theorem test_decode_add : decodeArm (0b1110#4 ++ 0b00#2 ++ 0b0#1 ++ 0b0100#4 ++ 0b1#1 ++ 0x1#4 ++ 0x0#4 ++ 0xFF#8
      ++ 0x2#4 : BitVec (4 + 2 + 1 + 4 + 1 + 4 + 4 + 8 + 4)) = .add .al 0#4 1#4 (.reg 2#4) := by decide

theorem test_decode_sub : decodeArm (0b1110#4 ++ 0b00#2 ++ 0b1#1 ++ 0b0010#4 ++ 0b0#1 ++ 0xD#4 ++ 0xD#4 ++ 0x0#4
      ++ 0x08#8 : BitVec (4 + 2 + 1 + 4 + 1 + 4 + 4 + 4 + 8)) = .sub .al 13#4 13#4 (.imm 0#4 8#8) := by decide

theorem test_decode_cmp : decodeArm (0b1110#4 ++ 0b00#2 ++ 0b0#1 ++ 0b1010#4 ++ 0b1#1 ++ 0x0#4 ++ 0x0#4 ++ 0x00#8
      ++ 0xF#4 : BitVec (4 + 2 + 1 + 4 + 1 + 4 + 4 + 8 + 4)) = .cmp .al 0#4 (.reg 15#4) := by decide

/-- DP22, 0xE0000291: opcode 0x0. -/
theorem test_decode_armUnhandled : decodeArm (0b1110#4 ++ 0b00#2 ++ 0b0#1 ++ 0b0000#4 ++ 0b0#1 ++ 0x0#4 ++ 0x0#4
      ++ 0x291#12 : BitVec (4 + 2 + 1 + 4 + 1 + 4 + 4 + 12)) = .armUnhandled .al 0x0000291#28 := by decide

/-- R124: `00100 Rd imm8`. -/
theorem test_decode_tMovImm : decodeThumb (0b00100#5 ++ 0b010#3 ++ 0x7F#8 : BitVec (5 + 3 + 8)) =
    .tMovImm 2#3 0x7F#8 := by decide

/-- R125: `1101 cond off8`. -/
theorem test_decode_tBcond : decodeThumb (0b1101#4 ++ 0b1010#4 ++ 0x7F#8 : BitVec (4 + 4 + 8)) =
    .tBcond .ge 0x7F#8 := by decide

/-- R126: `11100 off11`. -/
theorem test_decode_tB : decodeThumb (0b11100#5 ++ 0x400#11 : BitVec (5 + 11)) = .tB 0x400#11 := by decide

/-- R127: `11110 hi11`. -/
theorem test_decode_tBlHi : decodeThumb (0b11110#5 ++ 0x3FF#11 : BitVec (5 + 11)) = .tBlHi 0x3FF#11 := by decide

/-- R128: `11111 lo11`. -/
theorem test_decode_tBlLo : decodeThumb (0b11111#5 ++ 0x7FE#11 : BitVec (5 + 11)) = .tBlLo 0x7FE#11 := by decide

/-- T25: selector `11101`. -/
theorem test_decode_tUnhandled : decodeThumb (0b11101#5 ++ 0x000#11 : BitVec (5 + 11)) = .tUnhandled 0xE800#16 := by
  decide

/-- Bytes are little-endian (R111); too few of them do not decode. -/
theorem test_decode_bytes : decode .thumb [0x7F#8, 0x22#8, 0xAA#8] = .ok (.tMovImm 2#3 0x7F#8, [0xAA#8])
    ∧ decode .arm [0x01#8, 0x00#8, 0x00#8] = .error .tooFewBytes := by decide

/-- B1's word through the host's entry point; no row has another width than 32 or 16. -/
theorem test_decodeTableWord : decodeTableWord 32 0xEA000001 = some (.b .al 1#24)
    ∧ decodeTableWord 16 0xE001 = some (.tB 1#11) ∧ decodeTableWord 8 0 = none := by decide

/-! ### One step each, from 95_test_vectors -/

/-- B6. -/
theorem test_b_most_negative : stepGives (arm 0xEA800000) (fun t => t.pc == 0x06000004#32) = true := by decide

/-- B9, not taken and taken. -/
theorem test_bl_condition :
    stepGives (withNZCV { arm 0x1B000001 with lr := 0x1234#32 } false true false false)
      (fun t => t.lr == 0x1234#32 && t.pc == 0x08000004#32) = true
    ∧ stepGives { arm 0x1B000001 with lr := 0x1234#32 }
      (fun t => t.lr == 0x08000004#32 && t.pc == 0x08000008#32) = true := by decide

/-- L2: the standard assembler's word has offset zero here. -/
theorem test_ldr_register_form_offset_zero :
    stepGives ((withLoadData (arm 0xE5910004)).writeReg 1#4 0x03000000#32)
      (fun t => t.readReg 0#4 == 0x11111111#32 && t.readReg 1#4 == 0x03000000#32) = true := by decide

/-- L10: base and destination the same, write-back last. -/
theorem test_ldr_writeback_wins :
    stepGives ((withLoadData (arm 0xE7B11004)).writeReg 1#4 0x03000000#32)
      (fun t => t.readReg 1#4 == 0x03000004#32) = true := by decide

/-- L8: zero-extended. -/
theorem test_ldrb_zero_extends :
    stepGives ((withLoadData (arm 0xE7D1000B)).writeReg 1#4 0x03000000#32)
      (fun t => t.readReg 0#4 == 0x00000080#32) = true := by decide

/-- L17: a jump, low bits cleared. -/
theorem test_ldrb_to_pc :
    stepGives (((arm 0xE7D1F000).writeByte 0x03000000#32 0xAB#8).writeReg 1#4 0x03000000#32)
      (fun t => t.pc == 0x000000A8#32) = true := by decide

/-- S6v: the stored `pc` is `A + 12`; post-indexed. -/
theorem test_str_pc :
    stepGives ((arm 0xE682F004).writeReg 2#4 0x03000020#32)
      (fun t => (t.readWord 0x03000020#32).1 == 0x0800000C#32 && t.readReg 2#4 == 0x03000024#32) = true := by decide

/-- S9v: a store that straddles two regions. -/
theorem test_str_straddles :
    stepGives (((arm 0xE7810001).writeReg 0#4 0xA1B2C3D4#32).writeReg 1#4 0x02FFFFFD#32)
      (fun t => t.byteAt 0x0203FFFE#32 == 0xD4#8 && t.byteAt 0x0203FFFF#32 == 0xC3#8
        && t.byteAt 0x03000000#32 == 0xB2#8 && t.byteAt 0x03000001#32 == 0xA1#8) = true := by decide

/-- S3v: one byte only. -/
theorem test_strb_one_byte :
    stepGives (((arm 0xE7C10003).writeReg 0#4 0xFFFFFF7E#32).writeReg 1#4 0x02000000#32)
      (fun t => t.byteAt 0x02000003#32 == 0x7E#8 && t.byteAt 0x02000002#32 == 0#8
        && t.byteAt 0x02000004#32 == 0#8) = true := by decide

/-- DP9: rotation by 30. -/
theorem test_mov_rotates : stepGives (arm 0xE3A00FFF) (fun t => t.readReg 0#4 == 0x000003FC#32) = true := by decide

/-- DP16: a jump through `lr`, low bits cleared. -/
theorem test_mov_pc_lr : stepGives { arm 0xE1A0F00E with lr := 0x08000107#32 }
    (fun t => t.pc == 0x08000104#32 && t.flags == 0x1F#32) = true := by decide

/-- DP12: the sum wraps and writes no flag. -/
theorem test_add_wraps :
    stepGives (withNZCV (((arm 0xE0810002).writeReg 1#4 0xFFFFFFFF#32).writeReg 2#4 2#32) true false true false)
      (fun t => t.readReg 0#4 == 1#32 && t.flags == 0xA000001F#32) = true := by decide

/-- DP35: `pc` as source and destination. -/
theorem test_add_pc_pc : stepGives ((arm 0xE08FF000).writeReg 0#4 0x100#32) (fun t => t.pc == 0x0800010C#32) = true := by
  decide

/-- DP14: the difference wraps. -/
theorem test_sub_wraps : stepGives (arm 0xE2410001) (fun t => t.readReg 0#4 == 0xFFFFFFFF#32) = true := by decide

/-- DP5: a stale V is cleared. -/
theorem test_cmp_clears_v :
    stepGives (withNZCV ((arm 0xE3510005).writeReg 1#4 0x80000005#32) false false false true)
      (fun t => t.flags == 0xA000001F#32) = true := by decide

/-- DP6: no overflow flag where the ARM architecture has one. -/
theorem test_cmp_no_overflow :
    stepGives (withNZCV ((arm 0xE3510001).writeReg 1#4 0x80000000#32) true true true true)
      (fun t => t.flags == 0x2000001F#32) = true := by decide

/-- DP24. -/
theorem test_armUnhandled_reports : stepGives (arm 0xE12FFF1E)
    (fun t => t.diagLog == [.unimplementedArm 0xE12FFF1E#32 0x08000000#32] && t.pc == 0x08000004#32) = true := by decide

/-- DP28: no event when the condition fails. -/
theorem test_armUnhandled_condition_fails : stepGives (arm 0x00000000)
    (fun t => t.diagLog == [] && t.pc == 0x08000004#32) = true := by decide

/-- T2. -/
theorem test_tMovImm_keeps_flags :
    stepGives (withNZCV ((thumb 0x27FF).writeReg 7#4 0xFFFFFFFF#32) true true true true)
      (fun t => t.readReg 7#4 == 0xFF#32 && t.flags == 0xF000003F#32) = true := by decide

/-- T12: code 0xF is never taken and reports nothing. -/
theorem test_tBcond_never : stepGives (thumb 0xDF05) (fun t => t.pc == 0x08000002#32 && t.diagLog == []) = true := by
  decide

/-- T13. -/
theorem test_tBcond_ge : stepGives (withNZCV (thumb 0xDA7F) true false false true)
    (fun t => t.pc == 0x08000100#32) = true := by decide

/-- T8. -/
theorem test_tB_most_negative : stepGives (thumb 0xE400) (fun t => t.pc == 0x07FFF802#32) = true := by decide

/-- T18. -/
theorem test_tBlHi : stepGives (thumb 0xF3FF) (fun t => t.lr == 0x083FF002#32 && t.pc == 0x08000002#32) = true := by
  decide

/-- T21's effect, at 0x08000000: an odd staged value is not corrected. -/
theorem test_tBlLo_odd : stepGives { thumb 0xF800 with lr := 0x03000001#32 }
    (fun t => t.pc == 0x03000001#32 && t.lr == 0x08000003#32) = true := by decide

/-- T27: a fetch that touches unmapped bytes. -/
theorem test_tBlLo_unmapped_fetch :
    stepGives { thumb 0 with pc := 0x0A000000#32, lr := 0x00000100#32 }
      (fun t => t.pc == 0x000010FE#32 && t.lr == 0x0A000003#32
        && t.diagLog == [.unmappedRead 0x0A000000#32, .unmappedRead 0x0A000001#32]) = true := by decide

/-- T25. -/
theorem test_tUnhandled_reports : stepGives (thumb 0xE800)
    (fun t => t.diagLog == [.unimplementedThumb 0xE800#16 0x08000000#32] && t.pc == 0x08000002#32) = true := by decide

/-! ### The bus (95_test_vectors 2.2) -/

/-- M13: two I/O bytes, two unmapped ones. -/
theorem test_bus_io_then_unmapped : State.reset.readWord 0x040003FE#32 =
    (0xFFFF0000#32, { State.reset with diagLog := [.unmappedRead 0x04000400#32, .unmappedRead 0x04000401#32] }) := by
  decide

/-- M15: the end of the video buffer. -/
theorem test_bus_vram_end : ((State.reset.writeWord 0x06017FFE#32 0x01020304#32).readWord 0x06017FFE#32).1 =
    0xFFFF0304#32 := by decide

/-- M18: the end of the cartridge window. -/
theorem test_bus_cart_end : (State.reset.readWord 0x09FFFFFE#32) =
    (0xFFFFFFFF#32, { State.reset with diagLog := [.unmappedRead 0x0A000000#32, .unmappedRead 0x0A000001#32] }) := by
  decide

/-- M7: boot ROM mirrors, and drops writes. -/
theorem test_bus_boot_rom :
    let s := State.resetWith { launchDefaults with bootImage := [0x77#8] }
    s.byteAt 0x00FFC000#32 = 0x77#8 ∧ s.writeByte 0x00000000#32 0x99#8 = s := by decide

/-! ### Witnesses: states and operands that meet the hypotheses of each statement -/

theorem witness_DecodeOfEncodeIsIdentity :
    (Instr.armUnhandled .eq 0x0000000#28).wf = true ∧ (Instr.tUnhandled 0x4770#16).wf = true
      ∧ (Instr.str .nv ⟨15#4, 15#4, .zero, .down, .pre true⟩).wf = true := by decide

theorem witness_DecodersAnswerWellFormedInstructions :
    Isa.arm.bytes ≤ [0#8, 0#8, 0#8, 0#8].length ∧ Isa.thumb.bytes ≤ [0xFF#8, 0xFF#8, 0#8].length := by decide

theorem witness_IgnoredBitsDoNotMatter :
    (0xE5910004#32 &&& 0x0E000000#32 = 0x04000000#32 ∧ 0xFFF#32 &&& 0xFFFFF000#32 = 0#32)
    ∧ (0xE6910004#32 &&& 0x0D000000#32 = 0x04000000#32 ∧ 0x00200000#32 &&& 0xFFDFFFFF#32 = 0#32)
    ∧ (Class3 0xE0810002#32 ∧ Class3 (0xE0810002#32 ^^^ 0x0C100000#32) ∧ ImplementedOpcode 0xE0810002#32
      ∧ 0x0C100000#32 &&& 0xF3EFFFFF#32 = 0#32)
    ∧ (Class3 0xE1A00001#32 ∧ ImplementedOpcode 0xE1A00001#32 ∧ 0xE1A00001#32 &&& 0x02000000#32 = 0#32
      ∧ 0x00000FF0#32 &&& 0xFFFFF00F#32 = 0#32)
    ∧ (Class3 0xE1A00001#32 ∧ 0xE1A00001#32 &&& 0x01E00000#32 = 0x01A00000#32 ∧ 0x000F0000#32 &&& 0xFFF0FFFF#32 = 0#32)
    ∧ (Class3 0xE1500001#32 ∧ 0xE1500001#32 &&& 0x01E00000#32 = 0x01400000#32
      ∧ 0x0000F000#32 &&& 0xFFFF0FFF#32 = 0#32) := by
  unfold Class3 ImplementedOpcode; decide

theorem witness_RotatedImmediateOperand :
    (∃ t, exec (.mov .al 0#4 (.imm 4#4 0xFF#8)) State.reset = .next t)
      ∧ (∃ t, exec (.add .al 0#4 1#4 (.imm 15#4 0x01#8)) State.reset = .next t)
      ∧ ∃ t, exec (.sub .al 15#4 1#4 (.imm 0#4 0x01#8)) State.reset = .next t := ⟨⟨_, rfl⟩, ⟨_, rfl⟩, ⟨_, rfl⟩⟩

theorem witness_TransferAddressing :
    (⟨1#4, 0#4, .imm 0xFFF#12, .up, .post⟩ : Transfer).dir = .up
      ∧ (⟨1#4, 0#4, .imm 0xFFF#12, .up, .post⟩ : Transfer).index = .post
      ∧ (⟨1#4, 0#4, .zero, .down, .pre true⟩ : Transfer).dir = .down
      ∧ (⟨1#4, 0#4, .zero, .down, .pre true⟩ : Transfer).index ≠ .post := by decide

theorem witness_FailedConditionIsNoOp :
    (condOf (.str .eq ⟨1#4, 0#4, .zero, .up, .post⟩) = some .eq ∧ condPassed .eq State.reset.flags = false)
      ∧ flagT State.reset.flags = false ∧ wordNat State.reset State.reset.pc / 2 ^ 28 = (15#4).toNat
      ∧ condPassed (Cond.ofBits 15#4) State.reset.flags = false := by decide

/-- A condition that holds at reset, one that does not need to: for every statement that assumes its condition. -/
theorem witness_condition_passes :
    condPassed .al State.reset.flags = true ∧ condPassed .ne State.reset.flags = true
      ∧ condPassed .eq (withNZCV State.reset false true false false).flags = true := by decide

/-- For the results of B, BL, LDR, LDRB, STR, STRB, MOV, ADD, SUB, CMP and Thumb B<cond>, whose one hypothesis is that
the condition passes: each instruction in a state where it does. -/
theorem witness_BranchResult : condPassed .al State.reset.flags = true := by decide
theorem witness_BranchWithLinkResult : condPassed .ne State.reset.flags = true := by decide
theorem witness_LoadWordResult : condPassed .cc State.reset.flags = true := by decide
theorem witness_LoadByteResult : condPassed .pl State.reset.flags = true := by decide
theorem witness_StoreWordResult : condPassed .vc State.reset.flags = true := by decide
theorem witness_StoreByteResult : condPassed .ls State.reset.flags = true := by decide
theorem witness_MoveResult : condPassed .ge State.reset.flags = true := by decide
theorem witness_AddResult : condPassed .gt State.reset.flags = true := by decide
theorem witness_SubtractResult : condPassed .al State.reset.flags = true := by decide
theorem witness_CompareResult : condPassed .al State.reset.flags = true := by decide
theorem witness_ThumbConditionalBranchResult : condPassed .al (thumb 0xDE05).flags = true := by decide

/-- The clauses of a load's registers: base written back, destination 15, base 15. -/
theorem witness_LoadedRegisters :
    (WritesBack ⟨1#4, 0#4, .zero, .up, .post⟩ ∧ (1#4 : RegIdx) ≠ 15#4)
      ∧ (WritesBack ⟨15#4, 0#4, .zero, .up, .pre true⟩ ∧ (15#4 : RegIdx) = 15#4)
      ∧ ¬ WritesBack ⟨15#4, 15#4, .zero, .up, .pre false⟩ := by
  unfold WritesBack; decide

/-- The clauses of a store: a writable byte with a mirror, one that is not writable, one that no store reaches. -/
theorem witness_Stored :
    State.reset.writable (byteAddr 0x03000000#32 3) = true ∧ SharesByte 0x03008003#32 (byteAddr 0x03000000#32 3)
      ∧ State.reset.writable (byteAddr 0x07FFFFFF#32 1) = false ∧ ¬ SharesByte 0x03000004#32 (byteAddr 0x03000000#32 3) := by
  refine ⟨by decide, ⟨0x03000003, by decide, by decide⟩, by decide, ?_⟩
  rintro ⟨k, h, h'⟩
  have e : backingKey 0x03000004#32 = backingKey (byteAddr 0x03000000#32 3) := h.trans h'.symm
  revert e
  decide

theorem witness_ArmFallThroughReportsOnly :
    Class3 0xE12FFF1E#32 ∧ ¬ ImplementedOpcode 0xE12FFF1E#32
      ∧ condPassed (Cond.ofBits ((0xE12FFF1E#32).extractLsb' 28 4)) State.reset.flags = true := by
  unfold Class3 ImplementedOpcode; decide

theorem witness_ThumbMoveResult : 0x27FF#16 &&& 0xF800#16 = 0x2000#16 := by decide

theorem witness_ThumbFallThroughReportsOnly :
    (0xE800#16).toNat / 2 ^ 11 ∉ [0b00100, 0b11010, 0b11011, 0b11100, 0b11110, 0b11111] := by decide

theorem witness_StepRunsTheDecodedInstruction :
    (flagT (arm 0xE3A0302A).flags = false
      ∧ decode .arm [(arm 0xE3A0302A).byteAt (byteAddr (arm 0xE3A0302A).pc 0),
          (arm 0xE3A0302A).byteAt (byteAddr (arm 0xE3A0302A).pc 1),
          (arm 0xE3A0302A).byteAt (byteAddr (arm 0xE3A0302A).pc 2),
          (arm 0xE3A0302A).byteAt (byteAddr (arm 0xE3A0302A).pc 3)] = .ok (.mov .al 3#4 (.imm 0#4 0x2A#8), []))
    ∧ flagT (thumb 0x227F).flags = true
      ∧ decode .thumb [(thumb 0x227F).byteAt (byteAddr (thumb 0x227F).pc 0),
          (thumb 0x227F).byteAt (byteAddr (thumb 0x227F).pc 1)] = .ok (.tMovImm 2#3 0x7F#8, []) := by decide

/-- A well-formed state and its step: for the statements about every step that answers next. -/
theorem witness_StepKeepsStateWellFormed :
    ((arm 0xE7820004).writeReg 2#4 0x03000000#32).wf = true
      ∧ step ((arm 0xE7820004).writeReg 2#4 0x03000000#32) = .next (after ((arm 0xE7820004).writeReg 2#4 0x03000000#32)) :=
  ⟨by decide, rfl⟩

theorem witness_ArmPcStaysAligned :
    flagT (arm 0xE3A0F003).flags = false ∧ (arm 0xE3A0F003).pc.toNat % 4 = 0
      ∧ step (arm 0xE3A0F003) = .next (after (arm 0xE3A0F003)) ∧ Reaches (arm 0xE3A0F003) (after (arm 0xE3A0F003)) :=
  ⟨by decide, by decide, rfl, .tail (.refl _) rfl⟩

/-- A BL low half with an even staged value; any other half needs no condition on `lr`. -/
theorem witness_ThumbPcStaysEven :
    (flagT (thumb 0xF803).flags = true ∧ (thumb 0xF803).pc.toNat % 2 = 0
      ∧ halfNat (thumb 0xF803) (thumb 0xF803).pc / 2 ^ 11 = 0b11111 ∧ (thumb 0xF803).lr.toNat % 2 = 0)
    ∧ halfNat (thumb 0xE001) (thumb 0xE001).pc / 2 ^ 11 ≠ 0b11111
    ∧ step (thumb 0xF803) = .next (after (thumb 0xF803)) :=
  ⟨by decide, by decide, rfl⟩

theorem witness_OnlyCompareWritesFlags :
    step (arm 0xE3510005) = .next (after (arm 0xE3510005)) ∧ (after (arm 0xE3510005)).flags ≠ (arm 0xE3510005).flags :=
  ⟨rfl, by decide⟩

theorem witness_EncodingAndModeNeverChange : Reaches (arm 0xE3510005) (after (arm 0xE3510005)) := .tail (.refl _) rfl

theorem witness_SavedFlagsAreInert :
    step State.reset = .next (after State.reset) ∧ Reaches State.reset (after State.reset) := ⟨rfl, .tail (.refl _) rfl⟩

theorem witness_DiagnosticLogIsWriteOnly : step (thumb 0xE800) = .next (after (thumb 0xE800)) := rfl

/-- Other mode bits and other bits 27..6, the same N, Z, C, V and `T`. -/
theorem witness_ModeFieldIsNotRead :
    (0x0ABCD010#32).toNat / 2 ^ 28 = (arm 0xE3510005).flags.toNat / 2 ^ 28
      ∧ flagT 0x0ABCD010#32 = flagT (arm 0xE3510005).flags ∧ step (arm 0xE3510005) = .next (after (arm 0xE3510005)) :=
  ⟨by decide, by decide, rfl⟩

theorem witness_EventsOfAStep :
    (step (arm 0xE12FFF1E) = .next (after (arm 0xE12FFF1E)) ∧ flagT (arm 0xE12FFF1E).flags = false)
      ∧ step (thumb 0xE800) = .next (after (thumb 0xE800)) ∧ flagT (thumb 0xE800).flags = true :=
  ⟨⟨rfl, by decide⟩, rfl, by decide⟩

theorem witness_InstructionsWriteOnlyWhatTheyName :
    (∃ t, exec (.bl .al 1#24) State.reset = .next t) ∧ (4#4 : RegIdx) ≠ 15#4 ∧ 4#4 ∉ destinations (.bl .al 1#24)
      ∧ writesPc (.mov .al 3#4 (.reg 0#4)) = false ∧ rowName (.cmp .al 0#4 (.reg 0#4)) ≠ "STR"
      ∧ rowName (.cmp .al 0#4 (.reg 0#4)) ≠ "STRB" ∧ rowName (.bl .al 1#24) ≠ "CMP" :=
  ⟨⟨_, rfl⟩, by decide, by decide, by decide, by decide, by decide, by decide⟩

/-- An image of two bytes, and the last address of the window; a store to the window as a step of a run. -/
theorem witness_CartridgeIsReadOnly :
    (0x08000000 ≤ (0x08000001#32).toNat ∧ (0x08000001#32).toNat < 0x0A000000
      ∧ (0x08000001#32).toNat - 0x08000000 < [0x10#8, 0x20#8].length)
    ∧ 0x08000000 ≤ (0x09FFFFFF#32).toNat ∧ (0x09FFFFFF#32).toNat < 0x0A000000
    ∧ Reaches ((arm 0xE7810000).writeReg 1#4 0x08000000#32) (after ((arm 0xE7810000).writeReg 1#4 0x08000000#32)) :=
  ⟨by decide, by decide, by decide, .tail (.refl _) rfl⟩

/-- The first and the last address of every power-of-two region; two addresses a size apart; video RAM; cartridge. -/
theorem witness_RegionsWrapByMask :
    powerRegion (regionOf 0x00000000#32) = some (0x00000000, 0x4000)
      ∧ powerRegion (regionOf 0x02FFFFFF#32) = some (0x02000000, 0x40000)
      ∧ powerRegion (regionOf 0x03000000#32) = some (0x03000000, 0x8000)
      ∧ powerRegion (regionOf 0x05FFFFFF#32) = some (0x05000000, 0x400)
      ∧ powerRegion (regionOf 0x07000000#32) = some (0x07000000, 0x400)
      ∧ regionOf 0x03FFFFFF#32 = regionOf 0x03FF7FFF#32 ∧ (0x03FFFFFF#32).toNat = (0x03FF7FFF#32).toNat + 0x8000
      ∧ regionOf 0x06018000#32 = .vram ∧ regionOf 0x09FFFFFF#32 = .cart := by decide

theorem witness_RamBytesAreStored :
    (regionOf 0x02000000#32 = .ewram ∧ powerRegion (regionOf 0x02000000#32) = some (0x02000000, 0x40000))
      ∧ (regionOf 0x03FFFFFF#32 = .iwram ∧ powerRegion (regionOf 0x03FFFFFF#32) = some (0x03000000, 0x8000))
      ∧ (regionOf 0x05000000#32 = .palette ∧ powerRegion (regionOf 0x05000000#32) = some (0x05000000, 0x400))
      ∧ regionOf 0x07FFFFFF#32 = .oam ∧ powerRegion (regionOf 0x07FFFFFF#32) = some (0x07000000, 0x400) := by decide

/-- Each clause at the boundary of its range. -/
theorem witness_RomAndVideoBytes :
    (regionOf 0x00FFFFFF#32 = .boot ∧ State.reset.bootRomWritable = false)
      ∧ (State.resetWith { launchDefaults with bootRomWritable := true }).bootRomWritable = true
      ∧ (regionOf 0x06017FFF#32 = .vram ∧ (0x06017FFF#32).toNat % 0x20000 < 0x18000)
      ∧ (regionOf 0x06018000#32 = .vram ∧ 0x18000 ≤ (0x06018000#32).toNat % 0x20000)
      ∧ (regionOf 0x08000003#32 = .cart ∧ (0x08000003#32).toNat - 0x08000000 < (arm 0).cartLen)
      ∧ (regionOf 0x08000004#32 = .cart ∧ (arm 0).cartLen ≤ (0x08000004#32).toNat - 0x08000000) := by decide

theorem witness_IoWindowHasNoState :
    (0x04000000 ≤ (0x04000000#32).toNat ∧ (0x04000000#32).toNat ≤ 0x040003FF)
      ∧ 0x04000000 ≤ (0x040003FF#32).toNat ∧ (0x040003FF#32).toNat ≤ 0x040003FF := by decide

/-- The top of the gap below the end of the address space, where three more bytes are unmapped, and the last one,
where the next byte is boot ROM. -/
theorem witness_UnmappedReadsAreOpenBus :
    (regionOf 0xFFFFFFFC#32 = .unmapped ∧ regionOf (0xFFFFFFFC#32 + 1#32) = .unmapped
      ∧ regionOf (0xFFFFFFFC#32 + 2#32) = .unmapped ∧ regionOf (0xFFFFFFFC#32 + 3#32) = .unmapped)
      ∧ regionOf 0xFFFFFFFF#32 = .unmapped ∧ regionOf 0x04000400#32 = .unmapped := by decide

theorem witness_UnmappedWritesAreDiscarded : regionOf 0x0A000000#32 = .unmapped ∧ regionOf 0x01FFFFFF#32 = .unmapped := by
  decide

/-- A word that straddles external and internal work RAM. -/
theorem witness_WriteThenReadGivesTheValue :
    State.reset.writable 0x02FFFFFE#32 = true ∧ State.reset.writable (byteAddr 0x02FFFFFE#32 1) = true
      ∧ ∀ k < 4, State.reset.writable (byteAddr 0x02FFFFFE#32 k) = true := by decide

theorem witness_RegisterIndexes : (12#4).toNat < 13 ∧ (13#4).toNat = 13 ∧ (14#4).toNat = 14 ∧ (15#4).toNat = 15 := by
  decide

/-- A jump by an indexed write, in a state where it changes the slot. -/
theorem witness_RegisterWriteOfEveryIndex :
    ∃ t, exec (.mov .al 15#4 (.imm 0#4 3#8)) State.reset = .next t ∧ t.pc ≠ State.reset.pc := ⟨_, rfl, by decide⟩

theorem witness_ResetStateFollowsParameters :
    (0x02000000 ≤ (0x03FFFFFF#32).toNat ∧ (0x03FFFFFF#32).toNat ≤ 0x03FFFFFF)
      ∧ (0x05000000 ≤ (0x06017FFF#32).toNat ∧ (0x06017FFF#32).toNat ≤ 0x07FFFFFF
        ∧ (0x06017FFF#32).toNat % 0x20000 < 0x18000)
      ∧ (0x04000000 ≤ (0x040003FF#32).toNat ∧ (0x040003FF#32).toNat ≤ 0x040003FF)
      ∧ (regionOf 0x06018000#32 = .vram ∧ 0x18000 ≤ (0x06018000#32).toNat % 0x20000)
      ∧ (0x00FFFFFF#32).toNat ≤ 0x00FFFFFF ∧ 0x08000000 ≤ (0x09FFFFFF#32).toNat ∧ (0x09FFFFFF#32).toNat ≤ 0x09FFFFFF := by
  decide

/-- `STR r0, [pc, #-8]` at 0x03000000 stores at 0x03000004: R24 reads `pc` as 0x0300000C. -/
def selfStore : State :=
  ({ State.reset with pc := 0x03000000#32 }).withFetchWord 32 0xE70F0008

theorem witness_StoreIsSeenByTheNextFetch :
    flagT selfStore.flags = false
      ∧ selfStore.fetch.1 = .str .al ⟨15#4, 0#4, .imm 8#12, .down, .pre false⟩
      ∧ condPassed .al selfStore.flags = true
      ∧ (armFetched selfStore).transferAddr ⟨15#4, 0#4, .imm 8#12, .down, .pre false⟩ = byteAddr selfStore.pc 4
      ∧ ¬ WritesBack ⟨15#4, 0#4, .imm 8#12, .down, .pre false⟩
      ∧ ∀ k < 4, selfStore.writable (byteAddr selfStore.pc (4 + k)) = true := by
  unfold WritesBack; decide

theorem witness_SelfBranchLeavesTheState :
    (flagT (arm 0xEAFFFFFF).flags = false ∧ wordNat (arm 0xEAFFFFFF) (arm 0xEAFFFFFF).pc = 0xEAFFFFFF)
      ∧ flagT (thumb 0xE7FF).flags = true ∧ halfNat (thumb 0xE7FF) (thumb 0xE7FF).pc = 0xE7FF := by decide

/-- The two halves of a BL, next to each other in work RAM. -/
def blPair : State :=
  (({ State.reset with pc := 0x03000000#32 }).withFetchWord 16 0xF7FF).writeByte 0x03000002#32 0xFE#8
    |>.writeByte 0x03000003#32 0xFF#8

theorem witness_ThumbBranchLinkPair :
    flagT blPair.flags = true ∧ halfNat blPair blPair.pc = 0b11110 * 2 ^ 11 + (0x7FF#11).toNat
      ∧ halfNat blPair (byteAddr blPair.pc 2) = 0b11111 * 2 ^ 11 + (0x7FE#11).toNat := by decide

theorem witness_CartridgeLoadReplacesTheImage :
    regionOf 0x08000000#32 = .cart ∧ regionOf 0x0A000000#32 ≠ .cart ∧ regionOf 0x07FFFFFF#32 ≠ .cart := by decide

end Sys2Proof.Tests
end

section
/-! O37 and O53: the saved-flags slots (10_state R34) and the indexed register write (R25). -/

namespace Sys2Proof.Machine

open Sys2Proof.Spec

/-! ### The saved-flags slots: every operation commutes with replacing them -/

/-- The state with other saved-flags slots. -/
def State.withSavedFlags (s : State) (f : Vector Word 5) : State := { s with savedFlags := f }

section SavedFlags

variable (s : State) (f : Vector Word 5) (a v : Word) (b : Byte) (i : RegIdx) (x : Transfer)

@[simp] theorem State.withSavedFlags_savedFlags : (s.withSavedFlags f).savedFlags = f := rfl
@[simp] theorem State.withSavedFlags_self : s.withSavedFlags s.savedFlags = s := rfl

@[simp] theorem State.readReg_withSavedFlags : (s.withSavedFlags f).readReg i = s.readReg i := rfl
@[simp] theorem State.byteAt_withSavedFlags : (s.withSavedFlags f).byteAt a = s.byteAt a := rfl

@[simp] theorem State.operand2_withSavedFlags (o : Operand2) :
    (s.withSavedFlags f).operand2 o = s.operand2 o := rfl
@[simp] theorem State.transferUpd_withSavedFlags : (s.withSavedFlags f).transferUpd x = s.transferUpd x := rfl
@[simp] theorem State.transferAddr_withSavedFlags : (s.withSavedFlags f).transferAddr x = s.transferAddr x := rfl


@[simp] theorem State.writeReg_withSavedFlags :
    (s.withSavedFlags f).writeReg i v = (s.writeReg i v).withSavedFlags f := by
  unfold State.writeReg; split_ifs <;> rfl

@[simp] theorem State.writeBack_withSavedFlags :
    (s.withSavedFlags f).writeBack x v = (s.writeBack x v).withSavedFlags f := by
  simp only [State.writeBack_eq, State.writeReg_withSavedFlags]; split <;> rfl

@[simp] theorem State.readByte_withSavedFlags :
    (s.withSavedFlags f).readByte a = ((s.readByte a).1, (s.readByte a).2.withSavedFlags f) := rfl
@[simp] theorem State.readWord_withSavedFlags :
    (s.withSavedFlags f).readWord a = ((s.readWord a).1, (s.readWord a).2.withSavedFlags f) := rfl

@[simp] theorem State.writeByte_withSavedFlags :
    (s.withSavedFlags f).writeByte a b = (s.writeByte a b).withSavedFlags f := by
  simp only [State.writeByte_eq]; rfl

@[simp] theorem State.writeWord_withSavedFlags :
    (s.withSavedFlags f).writeWord a v = (s.writeWord a v).withSavedFlags f := by
  simp only [State.writeWord, State.writeByte_withSavedFlags]

end SavedFlags

/-- The fetch reads no saved-flags slot and keeps all five. -/
theorem State.fetch_withSavedFlags (s : State) (f : Vector Word 5) :
    (s.withSavedFlags f).fetch = (s.fetch.1, s.fetch.2.withSavedFlags f) := by
  cases h : flagT s.flags with
  | true => rw [State.fetch_thumb h, State.fetch_thumb (s := s.withSavedFlags f) h]; rfl
  | false => rw [State.fetch_arm h, State.fetch_arm (s := s.withSavedFlags f) h]; rfl

/-- The same end of a step, with other saved-flags slots in the next state. -/
def Result.withSavedFlags (f : Vector Word 5) : Result → Result
  | .next s => .next (s.withSavedFlags f)
  | .fault r => .fault r
  | .refused r => .refused r

@[simp] theorem Result.withSavedFlags_next (s : State) (f : Vector Word 5) :
    Result.withSavedFlags f (.next s) = .next (s.withSavedFlags f) := rfl

/-- A predicated effect that commutes with replacing the slots does so under any condition. -/
theorem Result.next_ite_withSavedFlags {s t t' : State} {f : Vector Word 5} {c : Bool} (h : t' = t.withSavedFlags f) :
    (.next (if c then t' else s.withSavedFlags f) : Result) = Result.withSavedFlags f (.next (if c then t else s)) := by
  subst h; cases c <;> rfl

/-- No instruction reads or writes a saved-flags slot (10_state R34). -/
theorem exec_withSavedFlags (ins : Instr) (s : State) (f : Vector Word 5) :
    exec ins (s.withSavedFlags f) = Result.withSavedFlags f (exec ins s) := by
  cases ins with
  | b c _ => rw [exec_b, exec_b]; exact Result.next_ite_withSavedFlags rfl
  | bl c _ => rw [exec_bl, exec_bl]; exact Result.next_ite_withSavedFlags rfl
  | ldr c _ => rw [exec_ldr, exec_ldr]; exact Result.next_ite_withSavedFlags (by simp)
  | ldrb c _ => rw [exec_ldrb, exec_ldrb]; exact Result.next_ite_withSavedFlags (by simp)
  | str c _ => rw [exec_str, exec_str]; exact Result.next_ite_withSavedFlags (by simp)
  | strb c _ => rw [exec_strb, exec_strb]; exact Result.next_ite_withSavedFlags (by simp)
  | mov c _ _ => rw [exec_mov, exec_mov]; exact Result.next_ite_withSavedFlags (by simp)
  | add c _ _ _ => rw [exec_add, exec_add]; exact Result.next_ite_withSavedFlags (by simp)
  | sub c _ _ _ => rw [exec_sub, exec_sub]; exact Result.next_ite_withSavedFlags (by simp)
  | cmp c _ _ => rw [exec_cmp, exec_cmp]; exact Result.next_ite_withSavedFlags rfl
  | armUnhandled c _ => rw [exec_armUnhandled, exec_armUnhandled]; exact Result.next_ite_withSavedFlags rfl
  | tBcond c _ => rw [exec_tBcond, exec_tBcond]; exact Result.next_ite_withSavedFlags rfl
  | tMovImm _ _ => simp [exec_tMovImm]
  | tB _ => rfl
  | tBlHi _ => rfl
  | tBlLo _ => rfl
  | tUnhandled _ => rfl

/-- From a state with other saved-flags slots a step does the same and keeps them (10_state R34). -/
theorem step_withSavedFlags (s : State) (f : Vector Word 5) :
    step (s.withSavedFlags f) = Result.withSavedFlags f (step s) := by
  unfold step
  rw [State.fetch_withSavedFlags, exec_withSavedFlags]

/-- A step keeps the slots: replacing them by themselves before it is replacing them so after it. -/
theorem step_savedFlags {s t : State} (h : step s = .next t) : t.savedFlags = s.savedFlags := by
  have key : t = t.withSavedFlags s.savedFlags := by
    simpa [h] using step_withSavedFlags s s.savedFlags
  rw [key, State.withSavedFlags_savedFlags]

/-! ### The raw slot: only the instructions of `writesPc` change it -/

/-- An indexed write of another register leaves the raw slot. -/
theorem State.writeReg_pc_of_ne (s : State) {i : RegIdx} (v : Word) (h : i ≠ 15#4) : (s.writeReg i v).pc = s.pc := by
  rw [State.writeReg_pc, if_neg h]

/-- A write-back of another base, or none, leaves the raw slot. -/
theorem State.writeBack_pc_of_ne (s : State) {x : Transfer} (v : Word) (h : WritesBack x → x.rn ≠ 15#4) :
    (s.writeBack x v).pc = s.pc := by
  rw [State.writeBack_pc, if_neg fun hb => h ((writesBack_iff x).mp hb.1) hb.2]

@[simp] theorem mem_destinations_ldr (c : Cond) (x : Transfer) (j : RegIdx) :
    j ∈ destinations (.ldr c x) ↔ j = x.rd ∨ WritesBack x ∧ j = x.rn := by
  by_cases h : x.index = .pre false <;> simp [destinations, WritesBack, h]

@[simp] theorem mem_destinations_ldrb (c : Cond) (x : Transfer) (j : RegIdx) :
    j ∈ destinations (.ldrb c x) ↔ j = x.rd ∨ WritesBack x ∧ j = x.rn := mem_destinations_ldr c x j

@[simp] theorem mem_destinations_str (c : Cond) (x : Transfer) (j : RegIdx) :
    j ∈ destinations (.str c x) ↔ WritesBack x ∧ j = x.rn := by
  by_cases h : x.index = .pre false <;> simp [destinations, WritesBack, h]

@[simp] theorem mem_destinations_strb (c : Cond) (x : Transfer) (j : RegIdx) :
    j ∈ destinations (.strb c x) ↔ WritesBack x ∧ j = x.rn := mem_destinations_str c x j

/-- No destination of an instruction that does not write the raw slot is 15. -/
theorem destination_ne_pc {ins : Instr} (h : writesPc ins = false) {j : RegIdx} (hj : j ∈ destinations ins) :
    j ≠ 15#4 := by
  rintro rfl
  cases ins <;> simp_all [writesPc]

/-- A predicated effect that leaves the raw slot does so under any condition. -/
theorem pc_of_next_ite {s t u : State} {c : Bool} (h : (.next (if c then u else s) : Result) = .next t)
    (hu : u.pc = s.pc) : t.pc = s.pc := by
  obtain rfl := Host.Outcome.next.inj h
  cases c
  · rfl
  · exact hu

/-- An instruction that is no branch and has no destination 15 leaves the raw slot (10_state R25, R27). -/
theorem exec_pc_of_not_writesPc {ins : Instr} {s t : State} (hw : writesPc ins = false)
    (h : exec ins s = .next t) : t.pc = s.pc := by
  have hd : ∀ j ∈ destinations ins, j ≠ 15#4 := fun _ => destination_ne_pc hw
  cases ins with
  | b _ _ => simp [writesPc] at hw
  | bl _ _ => simp [writesPc] at hw
  | tBcond _ _ => simp [writesPc] at hw
  | tB _ => simp [writesPc] at hw
  | tBlLo _ => simp [writesPc] at hw
  | mov c rd o =>
    rw [exec_mov] at h
    exact pc_of_next_ite h (s.writeReg_pc_of_ne _ (hd _ (by simp [destinations])))
  | add c rd rn o =>
    rw [exec_add] at h
    exact pc_of_next_ite h (s.writeReg_pc_of_ne _ (hd _ (by simp [destinations])))
  | sub c rd rn o =>
    rw [exec_sub] at h
    exact pc_of_next_ite h (s.writeReg_pc_of_ne _ (hd _ (by simp [destinations])))
  | ldr c x =>
    rw [exec_ldr, State.readWord_eq] at h
    exact pc_of_next_ite h ((State.writeBack_pc_of_ne _ _ fun hb => hd _ (by simp [hb])).trans
      (State.writeReg_pc_of_ne _ _ (hd _ (by simp))))
  | ldrb c x =>
    rw [exec_ldrb] at h
    exact pc_of_next_ite h ((State.writeBack_pc_of_ne _ _ fun hb => hd _ (by simp [hb])).trans
      (State.writeReg_pc_of_ne _ _ (hd _ (by simp))))
  | str c x =>
    rw [exec_str] at h
    exact pc_of_next_ite h ((State.writeBack_pc_of_ne _ _ fun hb => hd _ (by simp [hb])).trans
      (State.writeWord_pc _ _ _))
  | strb c x =>
    rw [exec_strb] at h
    exact pc_of_next_ite h ((State.writeBack_pc_of_ne _ _ fun hb => hd _ (by simp [hb])).trans
      (State.writeByte_pc _ _ _))
  | tMovImm rd _ =>
    obtain rfl := Host.Outcome.next.inj h
    exact s.writeReg_pc_of_ne _ (hd _ (by simp [destinations]))
  | cmp c rn o => rw [exec_cmp] at h; exact pc_of_next_ite h rfl
  | armUnhandled c body => rw [exec_armUnhandled] at h; exact pc_of_next_ite h rfl
  | tBlHi _ => obtain rfl := Host.Outcome.next.inj h; rfl
  | tUnhandled _ => obtain rfl := Host.Outcome.next.inj h; rfl

/-- The register index of a Thumb move is 0 to 7, never 15. -/
theorem lowReg_ne_pc (rd : LowReg) : (rd.setWidth 4 : RegIdx) ≠ 15#4 := by
  revert rd; decide

/-- The instructions that write the raw slot, by their rows of the opcode table (10_state R25, R27). -/
theorem rowName_of_writesPc {ins : Instr} (h : writesPc ins = true) :
    rowName ins ∈ ["B", "BL", "T_BCOND", "T_B", "T_BL_LO"]
      ∨ (rowName ins ∈ ["MOV", "ADD", "SUB", "LDR", "LDRB", "STR", "STRB"] ∧ 15#4 ∈ destinations ins) := by
  cases ins with
  | b _ _ => exact .inl (by simp [rowName])
  | bl _ _ => exact .inl (by simp [rowName])
  | tBcond _ _ => exact .inl (by simp [rowName])
  | tB _ => exact .inl (by simp [rowName])
  | tBlLo _ => exact .inl (by simp [rowName])
  | mov _ _ _ => exact .inr ⟨by simp [rowName], List.contains_iff_mem.mp h⟩
  | add _ _ _ _ => exact .inr ⟨by simp [rowName], List.contains_iff_mem.mp h⟩
  | sub _ _ _ _ => exact .inr ⟨by simp [rowName], List.contains_iff_mem.mp h⟩
  | ldr _ _ => exact .inr ⟨by simp [rowName], List.contains_iff_mem.mp h⟩
  | ldrb _ _ => exact .inr ⟨by simp [rowName], List.contains_iff_mem.mp h⟩
  | str _ _ => exact .inr ⟨by simp [rowName], List.contains_iff_mem.mp h⟩
  | strb _ _ => exact .inr ⟨by simp [rowName], List.contains_iff_mem.mp h⟩
  | tMovImm rd _ => simp [writesPc, destinations, (lowReg_ne_pc rd).symm] at h
  | cmp _ _ _ => simp [writesPc, destinations] at h
  | armUnhandled _ _ => simp [writesPc, destinations] at h
  | tBlHi _ => simp [writesPc, destinations] at h
  | tUnhandled _ => simp [writesPc, destinations] at h

end Sys2Proof.Machine

open Sys2Proof Sys2Proof.Machine Sys2Proof.Spec

/-- Settles O37: a step commutes with replacing the slots, and so keeps them. -/
theorem savedFlagsAreInert : Obligations.SavedFlagsAreInert := by
  refine ⟨fun s t h => step_savedFlags h, fun s t f h => ?_, fun t hr => ?_⟩
  · have key := step_withSavedFlags s f
    rwa [h] at key
  · exact hr.induction (Inv := fun u => u.savedFlags = State.reset.savedFlags)
      (fun _ _ hs h => (step_savedFlags h).trans hs) rfl

/-- Settles O53: one equation per index, and the instructions that write the raw slot. -/
theorem registerWriteOfEveryIndex : Obligations.RegisterWriteOfEveryIndex := by
  refine fun s i v => ⟨fun h => ?_, fun h => ?_, fun h => ?_, fun h => ?_, fun ins t h hpc => ?_⟩
  · exact ⟨s.r.set i.toNat v, s.writeReg_general v i h, Vector.getElem_set_self h,
      fun k hk hne => Vector.getElem_set_ne h hk hne.symm⟩
  · obtain rfl : i = 13#4 := BitVec.eq_of_toNat_eq h
    exact s.writeReg_sp v
  · obtain rfl : i = 14#4 := BitVec.eq_of_toNat_eq h
    exact s.writeReg_lr v
  · obtain rfl : i = 15#4 := BitVec.eq_of_toNat_eq h
    rw [s.writeReg_pc_index, ← toNat_clearLowBits, BitVec.ofNat_toNat, BitVec.setWidth_eq]
  · refine rowName_of_writesPc ?_
    by_contra hw
    exact hpc (exec_pc_of_not_writesPc (Bool.eq_false_of_not_eq_true hw) h)

end

section
/-! O44, O45, O48 and O49: masked regions (20_memory R65), stored bytes (R67), unmapped addresses (R79, R80). -/

namespace Sys2Proof.Machine

open Sys2Proof.Spec

/-! ### Masks of `k` low bits -/

/-- Keeping the `k` low bits of a word is the remainder modulo `2 ^ k`. -/
theorem toNat_and_lowMask (a : Word) {k : Nat} (hk : k ≤ 32) :
    (a &&& BitVec.ofNat 32 (2 ^ k - 1)).toNat = a.toNat % 2 ^ k := by
  have hlt : 2 ^ k - 1 < 2 ^ 32 :=
    (Nat.sub_lt (Nat.two_pow_pos k) Nat.one_pos).trans_le (Nat.pow_le_pow_right Nat.two_pos hk)
  rw [BitVec.toNat_and, BitVec.toNat_ofNat, Nat.mod_eq_of_lt hlt, Nat.and_two_pow_sub_one_eq_mod]

/-- Taking an aligned base off an address, wrapping included, keeps its `k` low bits. -/
theorem toNat_sub_and_lowMask (a : Word) {k base : Nat} (hk : k ≤ 32) (hbase : 2 ^ k ∣ base) :
    ((a - BitVec.ofNat 32 base) &&& BitVec.ofNat 32 (2 ^ k - 1)).toNat = a.toNat % 2 ^ k := by
  have hpow : 2 ^ k ∣ 2 ^ 32 := Nat.pow_dvd_pow 2 hk
  have hneg : 2 ^ k ∣ 2 ^ 32 - base % 2 ^ 32 := Nat.dvd_sub hpow ((Nat.dvd_mod_iff hpow).2 hbase)
  rw [toNat_and_lowMask _ hk, BitVec.toNat_sub, BitVec.toNat_ofNat, Nat.mod_mod_of_dvd _ hpow, Nat.add_mod,
    Nat.mod_eq_zero_of_dvd hneg, Nat.zero_add, Nat.mod_mod]

/-! ### The regions whose size is a power of two -/

/-- Their sizes are powers of two, their bases aligned, and their keys below the cartridge. -/
theorem powerRegion_layout {r : Region} {base size : Nat} (h : powerRegion r = some (base, size)) :
    (∃ k ≤ 32, size = 2 ^ k) ∧ size ∣ base ∧ base + size ≤ 0x08000000 := by
  cases r with
  | boot => cases h; exact ⟨⟨14, by decide⟩, by decide, by decide⟩
  | ewram => cases h; exact ⟨⟨18, by decide⟩, by decide, by decide⟩
  | iwram => cases h; exact ⟨⟨15, by decide⟩, by decide, by decide⟩
  | palette => cases h; exact ⟨⟨10, by decide⟩, by decide, by decide⟩
  | oam => cases h; exact ⟨⟨10, by decide⟩, by decide, by decide⟩
  | vram => cases h
  | cart => cases h
  | io => cases h
  | unmapped => cases h

section PowerRegion

variable {a : Word} {base size : Nat} (h : powerRegion (regionOf a) = some (base, size))
include h

/-- In such a region the offset is the address modulo the size, and the backing key is the base plus the offset. -/
theorem powerRegion_offset_key :
    regionOffset a = a.toNat % size ∧ backingKey a = some (base + a.toNat % size) := by
  cases r : regionOf a <;> rw [r] at h <;> cases h
  case boot => obtain ⟨-, hoff, hkey⟩ := region_boot r; exact ⟨hoff, by simp [backingKey, r, hkey]⟩
  case ewram => obtain ⟨-, hoff, hkey⟩ := region_ewram r; exact ⟨hoff, by simp [backingKey, r, hkey]⟩
  case iwram => obtain ⟨-, hoff, hkey⟩ := region_iwram r; exact ⟨hoff, by simp [backingKey, r, hkey]⟩
  case palette => obtain ⟨-, hoff, hkey⟩ := region_palette r; exact ⟨hoff, by simp [backingKey, r, hkey]⟩
  case oam => obtain ⟨-, hoff, hkey⟩ := region_oam r; exact ⟨hoff, by simp [backingKey, r, hkey]⟩

/-- A byte of such a region reads from its buffer at the masked offset. -/
theorem State.byteAt_powerRegion (s : State) : s.byteAt a = s.mem.get (base + a.toNat % size) := by
  obtain ⟨⟨k, -, rfl⟩, -, hend⟩ := powerRegion_layout h
  have hoff := Nat.mod_lt a.toNat (Nat.two_pow_pos k)
  exact s.byteAt_of_key (powerRegion_offset_key h).2 (by omega)

/-- An address one size further on, in the same region, mirrors this one. -/
theorem backingKey_mirror {b : Word} (hr : regionOf b = regionOf a) (hb : b.toNat = a.toNat + size) :
    backingKey b = backingKey a := by
  rw [(powerRegion_offset_key h).2, (powerRegion_offset_key (hr ▸ h)).2, hb, Nat.add_mod_right]

theorem State.byteAt_mirror {b : Word} (s : State) (hr : regionOf b = regionOf a) (hb : b.toNat = a.toNat + size) :
    s.byteAt b = s.byteAt a := by
  rw [s.byteAt_powerRegion h, s.byteAt_powerRegion (hr ▸ h), hb, Nat.add_mod_right]

end PowerRegion

/-! ### Writable and unmapped bytes -/

section Bytes

variable (s : State) {a : Word} (b : Byte)

theorem State.writable_ram (h : regionOf a = .ewram ∨ regionOf a = .iwram ∨ regionOf a = .palette
    ∨ regionOf a = .oam) : s.writable a = true := by
  rcases h with r | r | r | r <;> simp [State.writable, r]

/-- A write of a writable byte changes its backing byte and raises no event. -/
theorem State.writeByte_of_writable (h : s.writable a = true) : s.writeByte a b = s.poke (byteKey a) b := if_pos h

theorem State.byteAt_unmapped (h : regionOf a = .unmapped) : s.byteAt a = 0xFF#8 := by
  simp [State.byteAt, h]

theorem State.writable_unmapped (h : regionOf a = .unmapped) : s.writable a = false := by
  simp [State.writable, h]

theorem readEvents_unmapped (h : regionOf a = .unmapped) : readEvents a = [.unmappedRead a] := if_pos h

theorem writeEvents_unmapped (h : regionOf a = .unmapped) : writeEvents a b = [.unmappedWrite a b] := if_pos h

end Bytes

end Sys2Proof.Machine

open Sys2Proof Sys2Proof.Machine Sys2Proof.Spec

/-- Settles O44: masks keep low bits, and bases are aligned to the sizes. -/
theorem regionsWrapByMask : Obligations.RegionsWrapByMask := by
  refine ⟨fun a base size h => ?_, fun a h => ?_, fun a h => (region_cart h).2.1⟩
  · obtain ⟨hoff, hback⟩ := powerRegion_offset_key h
    obtain ⟨⟨k, hk, rfl⟩, hbase, -⟩ := powerRegion_layout h
    rw [toNat_and_lowMask a hk, toNat_sub_and_lowMask a hk hbase, hoff]
    exact ⟨rfl, rfl, Nat.mod_lt _ (Nat.two_pow_pos k), hback, rfl,
      fun b s hr hb => ⟨backingKey_mirror h hr hb, s.byteAt_mirror h hr hb⟩⟩
  · obtain ⟨-, hoff, -⟩ := region_vram h
    exact ⟨hoff.trans (toNat_and_vram a).symm,
      hoff.trans (toNat_sub_and_lowMask a (k := 17) (base := 0x06000000) (by decide) (by decide)).symm⟩

/-- Settles O45: the byte's key is the base plus the masked offset, and the write is one `Memory.set` at that key. -/
theorem ramBytesAreStored : Obligations.RamBytesAreStored := by
  intro s a b base size hram h
  have hkey := byteKey_of_backingKey (powerRegion_offset_key h).2
  refine ⟨s.byteAt_powerRegion h, s.mem.set (base + a.toNat % size) b, ?_, ?_, fun k hk => ?_⟩
  · rw [s.writeByte_of_writable b (s.writable_ram hram), hkey]; rfl
  · rw [Memory.get_set, if_pos rfl]
  · exact Memory.get_set_ne _ _ hk

/-- Settles O48: each unmapped byte reads 0xFF and reports itself. -/
theorem unmappedReadsAreOpenBus : Obligations.UnmappedReadsAreOpenBus := by
  refine fun s a h0 => ⟨?_, fun h1 => ?_, fun h1 h2 h3 => ?_⟩
  · rw [State.readByte, s.byteAt_unmapped h0, readEvents_unmapped h0]
  · rw [State.readHalf_eq, halfReadEvents, s.byteAt_unmapped h0, s.byteAt_unmapped h1, readEvents_unmapped h0,
      readEvents_unmapped h1]
    rfl
  · rw [State.readWord_eq, wordReadEvents, s.byteAt_unmapped h0, s.byteAt_unmapped h1, s.byteAt_unmapped h2,
      s.byteAt_unmapped h3, readEvents_unmapped h0, readEvents_unmapped h1, readEvents_unmapped h2,
      readEvents_unmapped h3]
    rfl

/-- Settles O49: an unmapped byte is not writable, and its write reports itself. -/
theorem unmappedWritesAreDiscarded : Obligations.UnmappedWritesAreDiscarded := by
  intro s a b h
  rw [State.writeByte_eq, s.writable_unmapped h, writeEvents_unmapped b h, if_neg Bool.false_ne_true]

end

section
/-! O8: the ARM branch immediate (30_encoding R115). -/

namespace Sys2Proof.Machine

/-- Shifting a sign-extended field left by `k` is taking `2 ^ k` times its signed value, at any width. -/
theorem signExtend_shiftLeft_eq_ofInt {w : Nat} (v : BitVec w) (n k : Nat) :
    v.signExtend n <<< k = BitVec.ofInt n (2 ^ k * v.toInt) := by
  have hpow : BitVec.twoPow n k = BitVec.ofInt n (2 ^ k) := by
    apply BitVec.eq_of_toNat_eq
    rw [BitVec.toNat_twoPow, ← BitVec.toNat_ofNat, ← BitVec.ofInt_natCast, Nat.cast_pow, Nat.cast_ofNat]
  rw [BitVec.shiftLeft_eq_mul_twoPow, BitVec.signExtend, hpow, Int.mul_comm, BitVec.ofInt_mul]

/-- The shift loses nothing of the signed value when the wider word holds the field's `w + k` bits. -/
theorem toInt_signExtend_shiftLeft {w n k : Nat} (v : BitVec w) (hw : 0 < w) (h : w + k ≤ n) :
    (v.signExtend n <<< k).toInt = 2 ^ k * v.toInt := by
  have hk : (0 : Int) < 2 ^ k := by positivity
  have hbound : (2 : Int) ^ k * 2 ^ (w - 1) ≤ 2 ^ (n - 1) := by
    rw [← pow_add]
    exact pow_le_pow_right₀ (by decide) (by omega)
  have hlow := mul_le_mul_of_nonneg_left v.le_toInt hk.le
  have hhigh := mul_lt_mul_of_pos_left v.toInt_lt hk
  rw [signExtend_shiftLeft_eq_ofInt]
  exact BitVec.toInt_ofInt_eq_self (by omega) (by linarith) (by linarith)

/-- A left shift by `k` of a word of at least `k` bits is a multiple of `2 ^ k`. -/
theorem two_pow_dvd_toNat_shiftLeft {n k : Nat} (x : BitVec n) (h : k ≤ n) : 2 ^ k ∣ (x <<< k).toNat := by
  rw [BitVec.toNat_shiftLeft, Nat.shiftLeft_eq, Nat.dvd_mod_iff (Nat.pow_dvd_pow 2 h)]
  exact Nat.dvd_mul_left _ _

section ArmBranch

variable (off24 : BitVec 24)

/-- The offset of an ARM branch is four times the signed field (30_encoding R115). -/
theorem toInt_armBranchOffset : (armBranchOffset off24).toInt = 4 * off24.toInt :=
  toInt_signExtend_shiftLeft off24 (by decide) (by decide)

theorem armBranchOffset_bounds :
    -2 ^ 25 ≤ (armBranchOffset off24).toInt ∧ (armBranchOffset off24).toInt ≤ 2 ^ 25 - 4 := by
  have hlow := off24.le_toInt
  have hhigh := off24.toInt_lt
  rw [toInt_armBranchOffset]
  constructor <;> omega

theorem four_dvd_toNat_armBranchOffset : 4 ∣ (armBranchOffset off24).toNat :=
  two_pow_dvd_toNat_shiftLeft (k := 2) _ (by decide)

end ArmBranch

end Sys2Proof.Machine

open Sys2Proof Sys2Proof.Machine Sys2Proof.Spec

/-- Settles O8: sign-extending and shifting by 2 multiplies by 4, and 26 bits fit in the word. -/
theorem armBranchImmediate : Obligations.ArmBranchImmediate := by
  refine ⟨fun off24 => ?_, by decide, by decide, by decide, by decide⟩
  obtain ⟨hlow, hhigh⟩ := armBranchOffset_bounds off24
  exact ⟨toInt_armBranchOffset off24, hlow, hhigh, Nat.mod_eq_zero_of_dvd (four_dvd_toNat_armBranchOffset off24)⟩

end

section
/-! O30: every step completes (40_condition_and_step R159). -/

namespace Sys2Proof.Machine

/-- No instruction faults or is refused, in any state: each equation of Laws/Exec answers next. -/
theorem exists_exec_eq_next (ins : Instr) (s : State) : ∃ t, exec ins s = .next t := by
  cases ins with
  | b c off24 => exact ⟨_, exec_b s c off24⟩
  | bl c off24 => exact ⟨_, exec_bl s c off24⟩
  | ldr c x => exact ⟨_, exec_ldr s c x⟩
  | ldrb c x => exact ⟨_, exec_ldrb s c x⟩
  | str c x => exact ⟨_, exec_str s c x⟩
  | strb c x => exact ⟨_, exec_strb s c x⟩
  | mov c rd o => exact ⟨_, exec_mov s c rd o⟩
  | add c rd rn o => exact ⟨_, exec_add s c rd rn o⟩
  | sub c rd rn o => exact ⟨_, exec_sub s c rd rn o⟩
  | cmp c rn o => exact ⟨_, exec_cmp s c rn o⟩
  | armUnhandled c body => exact ⟨_, exec_armUnhandled s c body⟩
  | tMovImm rd imm8 => exact ⟨_, exec_tMovImm s rd imm8⟩
  | tBcond c off8 => exact ⟨_, exec_tBcond s c off8⟩
  | tB off11 => exact ⟨_, exec_tB s off11⟩
  | tBlHi hi11 => exact ⟨_, exec_tBlHi s hi11⟩
  | tBlLo lo11 => exact ⟨_, exec_tBlLo s lo11⟩
  | tUnhandled h => exact ⟨_, exec_tUnhandled s h⟩

/-- The fetch always yields an instruction, so a step ends as that instruction does: in a next state. -/
theorem exists_step_eq_next (s : State) : ∃ t, step s = .next t := exists_exec_eq_next s.fetch.1 s.fetch.2

/-- The next state of a step is unique. -/
theorem step_deterministic {s t u : State} (ht : step s = .next t) (hu : step s = .next u) : u = t :=
  Host.Outcome.next.inj (hu.symm.trans ht)

/-- A run can go on from every state it reaches, since a step completes from any state. -/
theorem State.runsForever_of_any (s : State) : s.runsForever := fun t _ => exists_step_eq_next t

end Sys2Proof.Machine

open Sys2Proof Sys2Proof.Machine

/-- Settles O30: every instruction answers next in every state, and a step is the fetched instruction. -/
theorem everyStepCompletes : Obligations.EveryStepCompletes := by
  refine ⟨fun s => ?_, State.runsForever_of_any⟩
  obtain ⟨t, ht⟩ := exists_step_eq_next s
  exact ⟨t, ht, fun _ hu => step_deterministic ht hu⟩

end

section
/-! O1 and O2: the decoders answer well-formed instructions, and undo the encoder (30_encoding R110 to R130). -/

namespace Sys2Proof

/-! ### What the decoders answer, whatever the bits -/

section Answers

variable (c : Cond) (body : BitVec 28) (w : Word) (h : Half)

@[simp] theorem isa_decodeArmBody : (decodeArmBody c body).isa = .arm := by
  unfold decodeArmBody; split_ifs <;> rfl

@[simp] theorem isa_decodeArm : (decodeArm w).isa = .arm := isa_decodeArmBody _ _

@[simp] theorem isa_decodeThumb : (decodeThumb h).isa = .thumb := by
  unfold decodeThumb; split_ifs <;> rfl

/-- Only the fall-through's well-formedness says anything, and it says that no earlier row took the body. -/
@[simp] theorem wf_decodeArmBody : (decodeArmBody c body).wf = true := by
  fun_cases decodeArmBody c body
  case case11 => simp [Instr.wf, armBodyUnhandled, *]
  all_goals rfl

@[simp] theorem wf_decodeArm : (decodeArm w).wf = true := wf_decodeArmBody _ _

@[simp] theorem wf_decodeThumb : (decodeThumb h).wf = true := by
  fun_cases decodeThumb h
  case case6 => simp [Instr.wf, thumbUnhandled, *]
  all_goals rfl

/-- A condition followed by a body decodes to what the body does, under that condition. -/
theorem decodeArm_append : decodeArm (c.toBits ++ body : BitVec (4 + 28)) = decodeArmBody c body := by
  unfold decodeArm
  rw [extractLsb'_append_low (m := 4), extractLsb'_append_high (m := 4), Cond.ofBits_toBits]

/-- The fall-through is the answer for every well-formed fall-through body (43_arm_data_processing R209). -/
theorem decodeArmBody_unhandled (hb : armBodyUnhandled body = true) : decodeArmBody c body = .armUnhandled c body := by
  simp only [armBodyUnhandled, Bool.and_eq_true, bne_iff_ne] at hb
  obtain ⟨⟨⟨⟨⟨hbranch, htransfer⟩, hsub⟩, hadd⟩, hcmp⟩, hmov⟩ := hb
  simp only [decodeArmBody, hbranch, htransfer, hsub, hadd, hcmp, hmov, if_false]

/-- The fall-through is the answer for every well-formed fall-through half (44_thumb R238). -/
theorem decodeThumb_unhandled (hh : thumbUnhandled h = true) : decodeThumb h = .tUnhandled h := by
  simp only [thumbUnhandled, Bool.and_eq_true, bne_iff_ne] at hh
  obtain ⟨⟨⟨⟨hmov, hbcond⟩, hb⟩, hhi⟩, hlo⟩ := hh
  simp only [decodeThumb, hmov, hbcond, hb, hhi, hlo, if_false]

end Answers

/-! ### Reading a field off a number -/

/-- The number of a field, from its value. -/
theorem toNat_of_field_eq {n off len : Nat} {x : BitVec n} {v : BitVec len} (h : x.extractLsb' off len = v) :
    x.toNat / 2 ^ off % 2 ^ len = v.toNat := by
  rw [← h, BitVec.extractLsb'_toNat, Nat.shiftRight_eq_div_pow]

/-- Another value of a field, from the number it is part of. -/
theorem field_ne_of_toNat {n : Nat} (x : BitVec n) (off len : Nat) (v : BitVec len)
    (h : x.toNat / 2 ^ off % 2 ^ len ≠ v.toNat) : x.extractLsb' off len ≠ v := fun e => h (toNat_of_field_eq e)

/-- A bit given as a one-bit field, from the number it is part of. -/
theorem bit_eq_beq_one {n : Nat} (x : BitVec n) (k : Nat) (v : BitVec 1) (h : x.toNat / 2 ^ k % 2 = v.toNat) :
    x.getLsbD k = (v == 1#1) := by
  have hv : ∀ v : BitVec 1, v.toNat = (v == 1#1).toNat := by decide
  exact bit_eq_of_toNat x k _ (h.trans (hv v))

/-- A word given as a number splits into its condition and its body. -/
theorem decodeArm_of_toNat {w : Word} {c : Cond} {n : Nat} (h : w.toNat = c.toBits.toNat * 2 ^ 28 + n)
    (hn : n < 2 ^ 28) : ∃ body : BitVec 28, body.toNat = n ∧ decodeArm w = decodeArmBody c body := by
  have hbody : (BitVec.ofNat 28 n).toNat = n := by rw [BitVec.toNat_ofNat, Nat.mod_eq_of_lt hn]
  have hw : w = (c.toBits ++ BitVec.ofNat 28 n : BitVec (4 + 28)) :=
    BitVec.eq_of_toNat_eq (by rw [toNat_append_eq, hbody, h])
  exact ⟨_, hbody, by rw [hw, decodeArm_append]⟩

/-! ### Branches (30_encoding R114) -/

theorem decodeArm_encodeBranch (c : Cond) (link : BitVec 1) (off24 : BitVec 24) :
    decodeArm (encodeBranch c link off24) = if link == 1#1 then .bl c off24 else .b c off24 := by
  have hsum : (encodeBranch c link off24).toNat =
      c.toBits.toNat * 2 ^ 28 + (5 * 2 ^ 25 + link.toNat * 2 ^ 24 + off24.toNat) := by
    rw [toNat_encodeBranch]; omega
  obtain ⟨body, hn, hw⟩ := decodeArm_of_toNat hsum (by omega)
  have hclass : body.extractLsb' 25 3 = 0b101#3 := field_eq_of_toNat _ _ _ _ (by simp only [BitVec.toNat_ofNat]; omega)
  have hlink : body.getLsbD 24 = (link == 1#1) := bit_eq_beq_one _ _ _ (by omega)
  have hoff : body.extractLsb' 0 24 = off24 := field_eq_of_toNat _ _ _ _ (by omega)
  simp only [hw, decodeArmBody, hclass, hoff, hlink, if_true]

/-! ### Transfers: the fields as the encoder writes them (30_encoding R116, R117) -/

/-- The `I` bit. -/
def Offset.iBit : Offset → BitVec 1
  | .imm _ => 1#1
  | .zero => 0#1

/-- Bits 11..0. -/
def Offset.field : Offset → BitVec 12
  | .imm imm12 => imm12
  | .zero => 0#12

/-- The `U` bit. -/
def Direction.uBit : Direction → BitVec 1
  | .up => 1#1
  | .down => 0#1

/-- The `P` bit. -/
def Indexing.pBit : Indexing → BitVec 1
  | .pre _ => 1#1
  | .post => 0#1

/-- The `W` bit. -/
def Indexing.wBit : Indexing → BitVec 1
  | .pre wb => BitVec.ofBool wb
  | .post => 0#1

/-- The bits of a transfer below its condition, as a number. -/
def transferBody (byteBit loadBit : BitVec 1) (x : Transfer) : Nat :=
  2 ^ 26 + x.offset.iBit.toNat * 2 ^ 25 + x.index.pBit.toNat * 2 ^ 24 + x.dir.uBit.toNat * 2 ^ 23
    + byteBit.toNat * 2 ^ 22 + x.index.wBit.toNat * 2 ^ 21 + loadBit.toNat * 2 ^ 20 + x.rn.toNat * 2 ^ 16
    + x.rd.toNat * 2 ^ 12 + x.offset.field.toNat

theorem toNat_encodeTransfer_eq (c : Cond) (byteBit loadBit : BitVec 1) (x : Transfer) :
    (encodeTransfer c byteBit loadBit x).toNat = c.toBits.toNat * 2 ^ 28 + transferBody byteBit loadBit x := by
  show (c.toBits ++ 0b01#2 ++ x.offset.iBit ++ x.index.pBit ++ x.dir.uBit ++ byteBit ++ x.index.wBit ++ loadBit
    ++ x.rn ++ x.rd ++ x.offset.field : BitVec (4 + 2 + 1 + 1 + 1 + 1 + 1 + 1 + 4 + 4 + 12)).toNat = _
  simp only [toNat_append_eq, BitVec.toNat_ofNat, transferBody]
  omega

section Transfer

variable {body : BitVec 28} {byteBit loadBit : BitVec 1} {x : Transfer}
  (h : body.toNat = transferBody byteBit loadBit x)
include h

/-- The transfer's fields are read back from its body. -/
theorem decodeTransfer_of_toNat : decodeTransfer body = x := by
  obtain ⟨rn, rd, offset, dir, index⟩ := x
  simp only [transferBody] at h
  have hI : body.getLsbD 25 = (offset.iBit == 1#1) := bit_eq_beq_one _ _ _ (by omega)
  have hP : body.getLsbD 24 = (index.pBit == 1#1) := bit_eq_beq_one _ _ _ (by omega)
  have hU : body.getLsbD 23 = (dir.uBit == 1#1) := bit_eq_beq_one _ _ _ (by omega)
  have hW : body.getLsbD 21 = (index.wBit == 1#1) := bit_eq_beq_one _ _ _ (by omega)
  have hrn : body.extractLsb' 16 4 = rn := field_eq_of_toNat _ _ _ _ (by omega)
  have hrd : body.extractLsb' 12 4 = rd := field_eq_of_toNat _ _ _ _ (by omega)
  have hoff : body.extractLsb' 0 12 = offset.field := field_eq_of_toNat _ _ _ _ (by omega)
  simp only [decodeTransfer, hI, hP, hU, hW, hrn, hrd, hoff, Transfer.mk.injEq, true_and]
  refine ⟨by cases offset <;> rfl, by cases dir <;> rfl, ?_⟩
  cases index with
  | pre wb => cases wb <;> rfl
  | post => rfl

/-- A transfer's body dispatches on its load and byte bits (30_encoding R113, R116). -/
theorem decodeArmBody_of_transferBody (c : Cond) : decodeArmBody c body =
    if loadBit == 1#1 then if byteBit == 1#1 then .ldrb c x else .ldr c x
    else if byteBit == 1#1 then .strb c x else .str c x := by
  have hfields := decodeTransfer_of_toNat h
  simp only [transferBody] at h
  have hclass : body.extractLsb' 26 2 = 0b01#2 := field_eq_of_toNat _ _ _ _ (by simp only [BitVec.toNat_ofNat]; omega)
  have hbranch : body.extractLsb' 25 3 ≠ 0b101#3 := field_ne_of_toNat _ _ _ _ (by simp only [BitVec.toNat_ofNat]; omega)
  have hload : body.getLsbD 20 = (loadBit == 1#1) := bit_eq_beq_one _ _ _ (by omega)
  have hbyte : body.getLsbD 22 = (byteBit == 1#1) := bit_eq_beq_one _ _ _ (by omega)
  simp only [decodeArmBody, hbranch, hclass, hload, hbyte, hfields, if_true, if_false]

end Transfer

theorem decodeArm_encodeTransfer (c : Cond) (byteBit loadBit : BitVec 1) (x : Transfer) :
    decodeArm (encodeTransfer c byteBit loadBit x) =
      if loadBit == 1#1 then if byteBit == 1#1 then .ldrb c x else .ldr c x
      else if byteBit == 1#1 then .strb c x else .str c x := by
  obtain ⟨body, hn, hw⟩ := decodeArm_of_toNat (toNat_encodeTransfer_eq c byteBit loadBit x)
    (by unfold transferBody; omega)
  rw [hw, decodeArmBody_of_transferBody hn]

/-! ### Data processing (30_encoding R119 to R122) -/

/-- Operand 2 is read back from its `I` bit and its twelve bits. -/
theorem decodeOperand2_of_fields {body : BitVec 28} {o : Operand2}
    (hI : body.getLsbD 25 = ((encodeOperand2 o).1 == 1#1))
    (h12 : body.toNat % 2 ^ 12 = (encodeOperand2 o).2.toNat) : decodeOperand2 body = o := by
  cases o with
  | imm rot imm8 =>
    have h : body.toNat % 2 ^ 12 = rot.toNat * 2 ^ 8 + imm8.toNat := h12.trans (toNat_append_eq rot imm8)
    have hrot : body.extractLsb' 8 4 = rot := field_eq_of_toNat _ _ _ _ (by omega)
    have himm : body.extractLsb' 0 8 = imm8 := field_eq_of_toNat _ _ _ _ (by omega)
    rw [decodeOperand2, hI, hrot, himm]; rfl
  | reg rm =>
    have h : body.toNat % 2 ^ 12 = (0#8).toNat * 2 ^ 4 + rm.toNat := h12.trans (toNat_append_eq 0#8 rm)
    have hrm : body.extractLsb' 0 4 = rm := field_eq_of_toNat _ _ _ _ (by simp only [BitVec.toNat_ofNat] at h; omega)
    rw [decodeOperand2, hI, hrm]; rfl

theorem decodeArm_encodeDataProcessing (c : Cond) (opcode rn rd : BitVec 4) (o : Operand2) :
    ∃ body, decodeArm (encodeDataProcessing c opcode rn rd o) =
      if opcode = 0xD#4 then .mov c rd o else if opcode = 0x4#4 then .add c rd rn o
      else if opcode = 0x2#4 then .sub c rd rn o else if opcode = 0xA#4 then .cmp c rn o
      else .armUnhandled c body := by
  have hsum : (encodeDataProcessing c opcode rn rd o).toNat = c.toBits.toNat * 2 ^ 28
      + ((encodeOperand2 o).1.toNat * 2 ^ 25 + opcode.toNat * 2 ^ 21 + rn.toNat * 2 ^ 16 + rd.toNat * 2 ^ 12
        + (encodeOperand2 o).2.toNat) := by
    unfold encodeDataProcessing
    simp only [toNat_append_eq, BitVec.toNat_ofNat]
    omega
  obtain ⟨body, hn, hw⟩ := decodeArm_of_toNat hsum (by omega)
  have hbranch : body.extractLsb' 25 3 ≠ 0b101#3 := field_ne_of_toNat _ _ _ _ (by simp only [BitVec.toNat_ofNat]; omega)
  have htransfer : body.extractLsb' 26 2 ≠ 0b01#2 :=
    field_ne_of_toNat _ _ _ _ (by simp only [BitVec.toNat_ofNat]; omega)
  have hopcode : body.extractLsb' 21 4 = opcode := field_eq_of_toNat _ _ _ _ (by omega)
  have hrn : body.extractLsb' 16 4 = rn := field_eq_of_toNat _ _ _ _ (by omega)
  have hrd : body.extractLsb' 12 4 = rd := field_eq_of_toNat _ _ _ _ (by omega)
  have ho : decodeOperand2 body = o := decodeOperand2_of_fields (bit_eq_beq_one _ _ _ (by omega)) (by omega)
  exact ⟨body, by simp only [hw, decodeArmBody, hbranch, htransfer, hopcode, hrn, hrd, ho, if_false]⟩

/-! ### Thumb halves, from their numbers (30_encoding R123 to R128) -/

section Thumb

variable {h : Half}

theorem decodeThumb_movImm {rd : LowReg} {imm8 : Byte}
    (hn : h.toNat = 0b00100 * 2 ^ 11 + rd.toNat * 2 ^ 8 + imm8.toNat) : decodeThumb h = .tMovImm rd imm8 := by
  have hsel : h.extractLsb' 11 5 = 0b00100#5 := field_eq_of_toNat _ _ _ _ (by simp only [BitVec.toNat_ofNat]; omega)
  have hrd : h.extractLsb' 8 3 = rd := field_eq_of_toNat _ _ _ _ (by omega)
  have himm : h.extractLsb' 0 8 = imm8 := field_eq_of_toNat _ _ _ _ (by omega)
  simp only [decodeThumb, hsel, hrd, himm, if_true]

theorem decodeThumb_bcond {k : BitVec 4} {off8 : Byte}
    (hn : h.toNat = 0b1101 * 2 ^ 12 + k.toNat * 2 ^ 8 + off8.toNat) :
    decodeThumb h = .tBcond (Cond.ofBits k) off8 := by
  have hmov : h.extractLsb' 11 5 ≠ 0b00100#5 := field_ne_of_toNat _ _ _ _ (by simp only [BitVec.toNat_ofNat]; omega)
  have hsel : h.extractLsb' 12 4 = 0b1101#4 := field_eq_of_toNat _ _ _ _ (by simp only [BitVec.toNat_ofNat]; omega)
  have hk : h.extractLsb' 8 4 = k := field_eq_of_toNat _ _ _ _ (by omega)
  have hoff : h.extractLsb' 0 8 = off8 := field_eq_of_toNat _ _ _ _ (by omega)
  simp only [decodeThumb, hmov, hsel, hk, hoff, if_true, if_false]

/-- A half whose five-bit selector is 11100 or more is no move and no conditional branch. -/
theorem decodeThumb_of_selector {sel : BitVec 5} {v : BitVec 11} (hn : h.toNat = sel.toNat * 2 ^ 11 + v.toNat)
    (hsel : 0b11100 ≤ sel.toNat) : decodeThumb h =
      if sel = 0b11100#5 then .tB v else if sel = 0b11110#5 then .tBlHi v else if sel = 0b11111#5 then .tBlLo v
      else .tUnhandled h := by
  have hmov : sel ≠ 0b00100#5 := by rintro rfl; simp at hsel
  have hbcond : h.extractLsb' 12 4 ≠ 0b1101#4 := field_ne_of_toNat _ _ _ _ (by simp only [BitVec.toNat_ofNat]; omega)
  have hfield : h.extractLsb' 11 5 = sel := field_eq_of_toNat _ _ _ _ (by omega)
  have hv : h.extractLsb' 0 11 = v := field_eq_of_toNat _ _ _ _ (by omega)
  simp only [decodeThumb, hfield, hmov, hbcond, hv, if_false]

theorem decodeThumb_b {v : BitVec 11} (hn : h.toNat = 0b11100 * 2 ^ 11 + v.toNat) : decodeThumb h = .tB v :=
  decodeThumb_of_selector (sel := 0b11100#5) hn (by decide)

theorem decodeThumb_blHi {v : BitVec 11} (hn : h.toNat = 0b11110 * 2 ^ 11 + v.toNat) : decodeThumb h = .tBlHi v :=
  decodeThumb_of_selector (sel := 0b11110#5) hn (by decide)

theorem decodeThumb_blLo {v : BitVec 11} (hn : h.toNat = 0b11111 * 2 ^ 11 + v.toNat) : decodeThumb h = .tBlLo v :=
  decodeThumb_of_selector (sel := 0b11111#5) hn (by decide)

end Thumb

/-! ### Bytes -/

/-- Decoding the bytes of a word answers the word's instruction and the bytes after it. -/
theorem decode_bytesOfWord_eq {w : Word} {i : Instr} (h : decodeArm w = i) (rest : List Byte) :
    decode .arm (bytesOfWord w ++ rest) = .ok (i, rest) := by
  rw [decode_bytesOfWord, Machine.wordOfBytes_extract, h]

/-- Decoding the bytes of a half answers the half's instruction and the bytes after it. -/
theorem decode_bytesOfHalf_eq {h : Half} {i : Instr} (hi : decodeThumb h = i) (rest : List Byte) :
    decode .thumb (bytesOfHalf h ++ rest) = .ok (i, rest) := by
  rw [decode_bytesOfHalf, Machine.halfOfBytes_extract, hi]

/-- A list of at least four bytes decodes to the instruction of its first word. -/
theorem decode_arm_of_length {bytes : List Byte} (h : 4 ≤ bytes.length) :
    ∃ w, decode .arm bytes = .ok (decodeArm w, bytes.drop 4) := by
  match bytes, h with
  | _ :: _ :: _ :: _ :: _, _ => exact ⟨_, rfl⟩

/-- A list of at least two bytes decodes to the instruction of its first half. -/
theorem decode_thumb_of_length {bytes : List Byte} (h : 2 ≤ bytes.length) :
    ∃ v, decode .thumb bytes = .ok (decodeThumb v, bytes.drop 2) := by
  match bytes, h with
  | _ :: _ :: _, _ => exact ⟨_, rfl⟩

end Sys2Proof

open Sys2Proof

/-- Settles O1: each format's fields are read back from the number the encoder spells. -/
theorem decodeOfEncodeIsIdentity : Obligations.DecodeOfEncodeIsIdentity := by
  intro i rest hwf
  cases i with
  | b c off => exact decode_bytesOfWord_eq (decodeArm_encodeBranch c 0#1 off) rest
  | bl c off => exact decode_bytesOfWord_eq (decodeArm_encodeBranch c 1#1 off) rest
  | ldr c x => exact decode_bytesOfWord_eq (decodeArm_encodeTransfer c 0#1 1#1 x) rest
  | ldrb c x => exact decode_bytesOfWord_eq (decodeArm_encodeTransfer c 1#1 1#1 x) rest
  | str c x => exact decode_bytesOfWord_eq (decodeArm_encodeTransfer c 0#1 0#1 x) rest
  | strb c x => exact decode_bytesOfWord_eq (decodeArm_encodeTransfer c 1#1 0#1 x) rest
  | mov c rd o => exact decode_bytesOfWord_eq (decodeArm_encodeDataProcessing c 0xD#4 0#4 rd o).choose_spec rest
  | add c rd rn o => exact decode_bytesOfWord_eq (decodeArm_encodeDataProcessing c 0x4#4 rn rd o).choose_spec rest
  | sub c rd rn o => exact decode_bytesOfWord_eq (decodeArm_encodeDataProcessing c 0x2#4 rn rd o).choose_spec rest
  | cmp c rn o => exact decode_bytesOfWord_eq (decodeArm_encodeDataProcessing c 0xA#4 rn 0#4 o).choose_spec rest
  | armUnhandled c body =>
    exact decode_bytesOfWord_eq ((decodeArm_append c body).trans (decodeArmBody_unhandled c body hwf)) rest
  | tMovImm rd imm8 =>
    exact decode_bytesOfHalf_eq
      (decodeThumb_movImm (by simp only [toNat_append_eq, BitVec.toNat_ofNat]; omega)) rest
  | tBcond c off8 =>
    rw [← c.ofBits_toBits]
    exact decode_bytesOfHalf_eq
      (decodeThumb_bcond (by simp only [toNat_append_eq, BitVec.toNat_ofNat, Cond.ofBits_toBits]; omega)) rest
  | tB v => exact decode_bytesOfHalf_eq (decodeThumb_b (toNat_append_eq 0b11100#5 v)) rest
  | tBlHi v => exact decode_bytesOfHalf_eq (decodeThumb_blHi (toNat_append_eq 0b11110#5 v)) rest
  | tBlLo v => exact decode_bytesOfHalf_eq (decodeThumb_blLo (toNat_append_eq 0b11111#5 v)) rest
  | tUnhandled h => exact decode_bytesOfHalf_eq (decodeThumb_unhandled h hwf) rest

/-- Settles O2: the fall-through takes exactly what no other row takes. -/
theorem decodersAnswerWellFormedInstructions : Obligations.DecodersAnswerWellFormedInstructions := by
  refine ⟨fun w => ⟨wf_decodeArm w, isa_decodeArm w⟩, fun h => ⟨wf_decodeThumb h, isa_decodeThumb h⟩, ?_⟩
  intro isa bytes hlen
  cases isa with
  | arm =>
    obtain ⟨w, hw⟩ := decode_arm_of_length hlen
    exact ⟨_, hw, wf_decodeArm w, isa_decodeArm w⟩
  | thumb =>
    obtain ⟨h, hh⟩ := decode_thumb_of_length hlen
    exact ⟨_, hh, wf_decodeThumb h, isa_decodeThumb h⟩

end

section
/-! Every instruction is an effect under a condition (40_condition_and_step R156, R157), and what an effect changes,
field by field (10_state R44). O31, O33, O34, O35, O36, O40, O41 and O42 follow from it. -/

namespace Sys2Proof.Machine

open Sys2Proof.Spec

/-! ### Condition and effect -/

/-- Whether an instruction executes: its condition passes, or it has none. -/
def passes (i : Instr) (s : State) : Bool := (condOf i).all fun c => condPassed c s.flags

/-- What an instruction does when it executes. -/
def effect (i : Instr) (s : State) : State :=
  match i with
  | .b _ off24 => s.setPc (s.armTarget off24)
  | .bl _ off24 => (s.setLr s.pc).setPc (s.armTarget off24)
  | .ldr _ x =>
    ((s.readWord (s.transferAddr x)).2.writeReg x.rd (s.readWord (s.transferAddr x)).1).writeBack x (s.transferUpd x)
  | .ldrb _ x =>
    ((s.readByte (s.transferAddr x)).2.writeReg x.rd ((s.byteAt (s.transferAddr x)).setWidth 32)).writeBack x
      (s.transferUpd x)
  | .str _ x => (s.writeWord (s.transferAddr x) (s.readReg x.rd)).writeBack x (s.transferUpd x)
  | .strb _ x =>
    (s.writeByte (s.transferAddr x) ((s.readReg x.rd).extractLsb' 0 8)).writeBack x (s.transferUpd x)
  | .mov _ rd o => s.writeReg rd (s.operand2 o)
  | .add _ rd rn o => s.writeReg rd (s.readReg rn + s.operand2 o)
  | .sub _ rd rn o => s.writeReg rd (s.readReg rn - s.operand2 o)
  | .cmp _ rn o => { s with flags := compareFlags s.flags (s.readReg rn) (s.operand2 o) }
  | .armUnhandled c body => s.report (.unimplementedArm (c.toBits ++ body : BitVec (4 + 28)) s.armAddress)
  | .tMovImm rd imm8 => s.writeReg (rd.setWidth 4) (imm8.setWidth 32)
  | .tBcond _ off8 => s.setPc (s.pc + thumbCondOffset off8)
  | .tB off11 => s.setPc (s.pc + thumbBranchOffset off11)
  | .tBlHi hi11 => s.setLr (s.pc + thumbHighOffset hi11)
  | .tBlLo lo11 => (s.setLr (s.pc ||| 1#32)).setPc (s.lr + thumbLowOffset lo11)
  | .tUnhandled h => s.report (.unimplementedThumb h s.thumbAddress)

/-- Executing an instruction is its effect where it executes, and nothing where its condition fails. -/
theorem exec_eq (i : Instr) (s : State) : exec i s = .next (if passes i s then effect i s else s) := by
  cases i with
  | b c off24 => exact exec_b s c off24
  | bl c off24 => exact exec_bl s c off24
  | ldr c x => exact exec_ldr s c x
  | ldrb c x => exact exec_ldrb s c x
  | str c x => exact exec_str s c x
  | strb c x => exact exec_strb s c x
  | mov c rd o => exact exec_mov s c rd o
  | add c rd rn o => exact exec_add s c rd rn o
  | sub c rd rn o => exact exec_sub s c rd rn o
  | cmp c rn o => exact exec_cmp s c rn o
  | armUnhandled c body => exact exec_armUnhandled s c body
  | tMovImm rd imm8 => exact exec_tMovImm s rd imm8
  | tBcond c off8 => exact exec_tBcond s c off8
  | tB off11 => exact exec_tB s off11
  | tBlHi hi11 => exact exec_tBlHi s hi11
  | tBlLo lo11 => exact exec_tBlLo s lo11
  | tUnhandled h => exact exec_tUnhandled s h

theorem passes_of_condOf {i : Instr} {c : Cond} (h : condOf i = some c) (s : State) :
    passes i s = condPassed c s.flags := by
  simp [passes, h]

theorem exec_of_passes {i : Instr} {s : State} (h : passes i s = true) : exec i s = .next (effect i s) := by
  rw [exec_eq, if_pos h]

theorem exec_of_not_passes {i : Instr} {s : State} (h : passes i s = false) : exec i s = .next s := by
  rw [exec_eq, h, if_neg Bool.false_ne_true]

/-- The two ends of an instruction. -/
theorem exec_cases {i : Instr} {s t : State} (h : exec i s = .next t) :
    (passes i s = true ∧ t = effect i s) ∨ (passes i s = false ∧ t = s) := by
  cases hp : passes i s with
  | true => exact .inl ⟨rfl, Host.Outcome.next.inj (h.symm.trans (exec_of_passes hp))⟩
  | false => exact .inr ⟨rfl, Host.Outcome.next.inj (h.symm.trans (exec_of_not_passes hp))⟩

/-- What the unchanged state and the effect both satisfy holds after the instruction. -/
theorem exec_induction {P : State → Prop} {i : Instr} {s t : State} (h : exec i s = .next t) (hs : P s)
    (he : P (effect i s)) : P t := by
  rcases exec_cases h with ⟨-, rfl⟩ | ⟨-, rfl⟩
  · exact he
  · exact hs

/-! ### Register frames, and the cartridge window -/

/-- A register other than index 15 is read from `r`, `sp` and `lr`. -/
theorem State.readReg_congr {s t : State} (hr : t.r = s.r) (hsp : t.sp = s.sp) (hlr : t.lr = s.lr) {j : RegIdx}
    (hj : j ≠ 15#4) : t.readReg j = s.readReg j := by
  rcases RegIdx.cases_on j with h | rfl | rfl | h
  · simp only [State.readReg_general _ _ h, hr]
  · exact hsp
  · exact hlr
  · exact absurd h hj

theorem State.readReg_writeReg_of_ne (s : State) (v : Word) {i j : RegIdx} (hj : j ≠ 15#4) (h : j ≠ i) :
    (s.writeReg i v).readReg j = s.readReg j := by
  rw [State.readReg_writeReg _ _ _ _ hj, if_neg h]

theorem State.readReg_setLr_of_ne (s : State) (v : Word) {j : RegIdx} (h : j ≠ 14#4) :
    (s.setLr v).readReg j = s.readReg j := by
  rw [State.readReg_setLr, if_neg h]

theorem State.readReg_writeBack_of_ne (s : State) (v : Word) {x : Transfer} {j : RegIdx} (hj : j ≠ 15#4)
    (h : ¬ (WritesBack x ∧ j = x.rn)) : (s.writeBack x v).readReg j = s.readReg j := by
  rw [State.readReg_writeBack _ _ _ _ hj, if_neg fun hb => h ⟨(writesBack_iff x).mp hb.1, hb.2⟩]

/-- A byte of the cartridge window is no byte that a write can reach (20_memory R69). -/
theorem State.byteAt_writeByte_cart (s : State) (a' : Word) (b : Byte) {a : Word} (h : regionOf a = .cart) :
    (s.writeByte a' b).byteAt a = s.byteAt a := by
  rw [State.byteAt_writeByte, if_neg]
  rintro ⟨hw, hk⟩
  have hlow := (State.writable_key hw).2
  have hkey := byteKey_of_backingKey hk
  obtain ⟨hwin, -, hcart⟩ := region_cart h
  omega

theorem State.byteAt_writeWord_cart (s : State) (a' v : Word) {a : Word} (h : regionOf a = .cart) :
    (s.writeWord a' v).byteAt a = s.byteAt a := by
  simp only [State.writeWord, State.byteAt_writeByte_cart _ _ _ h]

/-! ### What an effect changes -/

section Effect

variable (i : Instr) (s : State)

/-- No effect reaches the saved-flags slots, the image's length or the two parameters. -/
theorem untouched_effect : Untouched s (effect i s) := by
  cases i <;> simp [Untouched, effect, State.readWord_eq]

theorem effect_cartLen : (effect i s).cartLen = s.cartLen := by
  obtain ⟨-, hlen, -⟩ := untouched_effect i s
  exact hlen

theorem effect_ioReadByte : (effect i s).ioReadByte = s.ioReadByte := by
  obtain ⟨-, -, -, hio⟩ := untouched_effect i s
  exact hio

/-- Only the stores change stored bytes. -/
theorem effect_mem (hstr : rowName i ≠ "STR") (hstrb : rowName i ≠ "STRB") : (effect i s).mem = s.mem := by
  cases i
  case str => exact absurd rfl hstr
  case strb => exact absurd rfl hstrb
  all_goals simp [effect, State.readWord_eq]

theorem effect_byteAt (hstr : rowName i ≠ "STR") (hstrb : rowName i ≠ "STRB") (a : Word) :
    (effect i s).byteAt a = s.byteAt a :=
  State.byteAt_congr (effect_mem i s hstr hstrb) (effect_cartLen i s) (effect_ioReadByte i s) a

/-- Only CMP changes the flags word. -/
theorem effect_flags (hcmp : rowName i ≠ "CMP") : (effect i s).flags = s.flags := by
  cases i
  case cmp => exact absurd rfl hcmp
  all_goals simp [effect, State.readWord_eq]

/-- Every effect keeps memory well-formed. -/
theorem wf_effect (h : s.wf = true) : (effect i s).wf = true := by
  cases i
  case str => exact State.wf_writeBack _ _ _ (State.wf_writeWord _ _ _ h)
  case strb => exact State.wf_writeBack _ _ _ (State.wf_writeByte _ _ _ h)
  all_goals
    exact State.wf_congr (effect_mem _ s (by simp [rowName]) (by simp [rowName])) (effect_cartLen _ s) h

/-- No register outside the destinations changes; index 15 reads the raw slot, which has its own lemma. -/
theorem effect_readReg {j : RegIdx} (hj : j ≠ 15#4) (hd : j ∉ destinations i) :
    (effect i s).readReg j = s.readReg j := by
  cases i with
  | b _ _ => exact State.readReg_setPc _ _ _ hj
  | bl _ _ =>
    exact (State.readReg_setPc _ _ _ hj).trans (State.readReg_setLr_of_ne _ _ (by simpa [destinations] using hd))
  | ldr c x =>
    rw [mem_destinations_ldr, not_or] at hd
    rw [effect, State.readReg_writeBack_of_ne _ _ hj hd.2, State.readReg_writeReg_of_ne _ _ hj hd.1, State.readWord_eq]
    exact State.readReg_congr rfl rfl rfl hj
  | ldrb c x =>
    rw [mem_destinations_ldrb, not_or] at hd
    rw [effect, State.readReg_writeBack_of_ne _ _ hj hd.2, State.readReg_writeReg_of_ne _ _ hj hd.1]
    exact State.readReg_congr rfl rfl rfl hj
  | str c x =>
    rw [mem_destinations_str] at hd
    rw [effect, State.readReg_writeBack_of_ne _ _ hj hd, State.readReg_writeWord]
  | strb c x =>
    rw [mem_destinations_strb] at hd
    rw [effect, State.readReg_writeBack_of_ne _ _ hj hd, State.readReg_writeByte]
  | mov _ _ _ => exact State.readReg_writeReg_of_ne _ _ hj (by simpa [destinations] using hd)
  | add _ _ _ _ => exact State.readReg_writeReg_of_ne _ _ hj (by simpa [destinations] using hd)
  | sub _ _ _ _ => exact State.readReg_writeReg_of_ne _ _ hj (by simpa [destinations] using hd)
  | tMovImm _ _ => exact State.readReg_writeReg_of_ne _ _ hj (by simpa [destinations] using hd)
  | tBcond _ _ => exact State.readReg_setPc _ _ _ hj
  | tB _ => exact State.readReg_setPc _ _ _ hj
  | tBlHi _ => exact State.readReg_setLr_of_ne _ _ (by simpa [destinations] using hd)
  | tBlLo _ =>
    exact (State.readReg_setPc _ _ _ hj).trans (State.readReg_setLr_of_ne _ _ (by simpa [destinations] using hd))
  | cmp _ _ _ => exact State.readReg_congr rfl rfl rfl hj
  | armUnhandled _ _ => exact State.readReg_congr rfl rfl rfl hj
  | tUnhandled _ => exact State.readReg_congr rfl rfl rfl hj

/-- No effect reaches a byte of the cartridge window. -/
theorem effect_byteAt_cart {a : Word} (h : regionOf a = .cart) : (effect i s).byteAt a = s.byteAt a := by
  cases i
  case str => rw [effect, State.byteAt_writeBack, State.byteAt_writeWord_cart _ _ _ h]
  case strb => rw [effect, State.byteAt_writeBack, State.byteAt_writeByte_cart _ _ _ h]
  all_goals exact effect_byteAt _ s (by simp [rowName]) (by simp [rowName]) a

end Effect

/-! ### Events -/

/-- An instruction that executes appends its own events to the log (60_exceptions R264). -/
theorem effect_diagLog {i : Instr} {s : State} (hp : passes i s = true) :
    (effect i s).diagLog = s.diagLog ++ instrEvents i s := by
  cases i with
  | ldr c x =>
    rw [passes_of_condOf rfl] at hp
    simp [effect, instrEvents, hp, State.readWord_eq, unmappedReads_word]
  | ldrb c x =>
    rw [passes_of_condOf rfl] at hp
    simp [effect, instrEvents, hp, unmappedReads_byte]
  | str c x =>
    rw [passes_of_condOf rfl] at hp
    simp [effect, instrEvents, hp, unmappedWrites_word]
  | strb c x =>
    rw [passes_of_condOf rfl] at hp
    simp [effect, instrEvents, hp, unmappedWrites_byte]
  | armUnhandled c body =>
    rw [passes_of_condOf rfl] at hp
    have hw : (c.toBits ++ body : BitVec (4 + 28)) = BitVec.ofNat 32 (2 ^ 28 * c.toBits.toNat + body.toNat) := by
      apply BitVec.eq_of_toNat_eq
      rw [toNat_append_eq, BitVec.toNat_ofNat]
      omega
    simp only [effect, instrEvents, hp, State.report_diagLog, State.armAddress, hw, if_true]
  | tUnhandled _ => rfl
  | _ => simp [effect, instrEvents]

/-- A failed condition reports nothing. -/
theorem instrEvents_of_not_passes {i : Instr} {s : State} (hp : passes i s = false) : instrEvents i s = [] := by
  cases i <;> simp_all [passes, condOf, instrEvents]

theorem exec_diagLog {i : Instr} {s t : State} (h : exec i s = .next t) :
    t.diagLog = s.diagLog ++ instrEvents i s := by
  rcases exec_cases h with ⟨hp, rfl⟩ | ⟨hp, rfl⟩
  · exact effect_diagLog hp
  · rw [instrEvents_of_not_passes hp, List.append_nil]

/-! ### Bits 27..0 of the flags word -/

/-- CMP writes the four flags and keeps the 28 bits below them (10_state R33). -/
theorem compareFlags_low (flags a b : Word) : (compareFlags flags a b).extractLsb' 0 28 = flags.extractLsb' 0 28 :=
  extractLsb'_append_low (m := 4) _ _

theorem effect_flags_low (i : Instr) (s : State) : (effect i s).flags.extractLsb' 0 28 = s.flags.extractLsb' 0 28 := by
  by_cases hcmp : rowName i = "CMP"
  · cases i <;> simp [rowName] at hcmp
    exact compareFlags_low _ _ _
  · rw [effect_flags i s hcmp]

theorem exec_flags {i : Instr} {s t : State} (hcmp : rowName i ≠ "CMP") (h : exec i s = .next t) :
    t.flags = s.flags :=
  exec_induction (P := fun u => u.flags = s.flags) h rfl (effect_flags i s hcmp)

/-! ### Alignment of the raw slot (10_state R28) -/

/-- An indexed write keeps a multiple of 4: index 15 drops the two low bits. -/
theorem State.writeReg_aligned {s : State} (h : s.pc.toNat % 4 = 0) (i : RegIdx) (v : Word) :
    (s.writeReg i v).pc.toNat % 4 = 0 := by
  rw [State.writeReg_pc]
  split
  · rw [toNat_clearLowBits]; omega
  · exact h

theorem State.writeBack_aligned {s : State} (h : s.pc.toNat % 4 = 0) (x : Transfer) (v : Word) :
    (s.writeBack x v).pc.toNat % 4 = 0 := by
  rw [State.writeBack_eq]
  split
  · exact State.writeReg_aligned h _ _
  · exact h

theorem State.armTarget_aligned {s : State} (h : s.pc.toNat % 4 = 0) (off24 : BitVec 24) :
    (s.armTarget off24).toNat % 4 = 0 := by
  have hoff := four_dvd_toNat_armBranchOffset off24
  rw [State.armTarget, BitVec.toNat_add]
  omega

/-- An ARM effect keeps the raw slot a multiple of 4. -/
theorem effect_aligned {i : Instr} (hi : i.isa = .arm) {s : State} (h : s.pc.toNat % 4 = 0) :
    (effect i s).pc.toNat % 4 = 0 := by
  cases i with
  | b _ off24 => exact State.armTarget_aligned h off24
  | bl _ off24 => exact State.armTarget_aligned h off24
  | ldr _ _ =>
    rw [effect, State.readWord_eq]
    exact State.writeBack_aligned (State.writeReg_aligned (by exact h) _ _) _ _
  | ldrb _ _ => exact State.writeBack_aligned (State.writeReg_aligned (by exact h) _ _) _ _
  | str _ _ => exact State.writeBack_aligned ((congrArg (·.toNat % 4) (State.writeWord_pc _ _ _)).trans h) _ _
  | strb _ _ => exact State.writeBack_aligned ((congrArg (·.toNat % 4) (State.writeByte_pc _ _ _)).trans h) _ _
  | mov _ _ _ => exact State.writeReg_aligned h _ _
  | add _ _ _ _ => exact State.writeReg_aligned h _ _
  | sub _ _ _ _ => exact State.writeReg_aligned h _ _
  | cmp _ _ _ => exact h
  | armUnhandled _ _ => exact h
  | tMovImm _ _ => cases hi
  | tBcond _ _ => cases hi
  | tB _ => cases hi
  | tBlHi _ => cases hi
  | tBlLo _ => cases hi
  | tUnhandled _ => cases hi

/-- An even slot plus a shifted offset is even. -/
theorem toNat_add_shiftLeft_even {p : Word} (h : p.toNat % 2 = 0) (v : Word) : (p + v <<< 1).toNat % 2 = 0 := by
  have hv : 2 ∣ (v <<< 1).toNat := two_pow_dvd_toNat_shiftLeft (k := 1) v (by decide)
  rw [BitVec.toNat_add]
  omega

/-- A Thumb effect keeps the raw slot even, a BL low half where the staged `lr` is even. -/
theorem effect_even {i : Instr} (hi : i.isa = .thumb) {s : State} (h : s.pc.toNat % 2 = 0)
    (hlr : rowName i = "T_BL_LO" → s.lr.toNat % 2 = 0) : (effect i s).pc.toNat % 2 = 0 := by
  cases i with
  | tMovImm rd imm8 => rw [effect, State.writeReg_pc_of_ne _ _ (lowReg_ne_pc rd), h]
  | tBcond _ off8 => exact toNat_add_shiftLeft_even h _
  | tB off11 => exact toNat_add_shiftLeft_even h _
  | tBlLo lo11 => exact toNat_add_shiftLeft_even (hlr rfl) _
  | tBlHi _ => exact h
  | tUnhandled _ => exact h
  | b _ _ => cases hi
  | bl _ _ => cases hi
  | ldr _ _ => cases hi
  | ldrb _ _ => cases hi
  | str _ _ => cases hi
  | strb _ _ => cases hi
  | mov _ _ _ => cases hi
  | add _ _ _ _ => cases hi
  | sub _ _ _ _ => cases hi
  | cmp _ _ _ => cases hi
  | armUnhandled _ _ => cases hi

/-! ### The step -/

/-- The number of a half is that half. -/
theorem toNat_ofNat_halfNat (s : State) (a : Word) : (BitVec.ofNat 16 (halfNat s a)).toNat = halfNat s a := by
  rw [halfNat_eq, BitVec.ofNat_toNat, BitVec.setWidth_eq]

/-- The number of a word is that word. -/
theorem toNat_ofNat_wordNat (s : State) (a : Word) : (BitVec.ofNat 32 (wordNat s a)).toNat = wordNat s a := by
  rw [wordNat_eq, BitVec.ofNat_toNat, BitVec.setWidth_eq]

section Step

variable {s t : State}

/-- The ARM step: the word at the raw slot, run in the state after the advance. -/
theorem step_arm (h : flagT s.flags = false) :
    step s = exec (decodeArm (BitVec.ofNat 32 (wordNat s s.pc))) (armFetched s) := by
  rw [step, fetch_eq_armFetched h]

/-- The Thumb step. -/
theorem step_thumb (h : flagT s.flags = true) :
    step s = exec (decodeThumb (BitVec.ofNat 16 (halfNat s s.pc))) (thumbFetched s) := by
  rw [step, fetch_eq_thumbFetched h]

/-- The fetch changes the raw slot and the log only. -/
theorem State.fetch_snd (s : State) : ∃ p l, s.fetch.2 = { s with pc := p, diagLog := l } := by
  cases h : flagT s.flags with
  | true => exact ⟨_, _, by rw [fetch_eq_thumbFetched h]; rfl⟩
  | false => exact ⟨_, _, by rw [fetch_eq_armFetched h]; rfl⟩

/-- What does not look at the raw slot and the log, and every effect keeps, a step keeps. -/
theorem step_induction {P : State → Prop} (hP : ∀ u p l, P u → P { u with pc := p, diagLog := l })
    (heffect : ∀ i u, P u → P (effect i u)) (h : step s = .next t) (hs : P s) : P t := by
  obtain ⟨p, l, hfetch⟩ := s.fetch_snd
  have hf : P s.fetch.2 := hfetch ▸ hP s p l hs
  exact exec_induction h hf (heffect _ _ hf)

theorem step_wf (h : step s = .next t) (hs : s.wf = true) : t.wf = true :=
  step_induction (P := fun u => u.wf = true) (fun _ _ _ hu => State.wf_congr rfl rfl hu) wf_effect h hs

theorem step_flags_low (h : step s = .next t) : t.flags.extractLsb' 0 28 = s.flags.extractLsb' 0 28 :=
  step_induction (P := fun u => u.flags.extractLsb' 0 28 = s.flags.extractLsb' 0 28) (fun _ _ _ hu => hu)
    (fun i u hu => (effect_flags_low i u).trans hu) h rfl

/-- `T` is bit 5, so no step changes it (10_state R31). -/
theorem flagT_eq_of_low {f g : Word} (h : f.extractLsb' 0 28 = g.extractLsb' 0 28) : flagT f = flagT g := by
  have h5 := congrArg (·.getLsbD 5) h
  simpa [flagT, BitVec.getLsbD_extractLsb'] using h5

theorem step_flagT (h : step s = .next t) : flagT t.flags = flagT s.flags := flagT_eq_of_low (step_flags_low h)

theorem step_cartLen (h : step s = .next t) : t.cartLen = s.cartLen :=
  step_induction (P := fun u => u.cartLen = s.cartLen) (fun _ _ _ hu => hu)
    (fun i u hu => (effect_cartLen i u).trans hu) h rfl

theorem step_byteAt_cart (h : step s = .next t) {a : Word} (ha : regionOf a = .cart) : t.byteAt a = s.byteAt a :=
  step_induction (P := fun u => u.byteAt a = s.byteAt a) (fun _ _ _ hu => hu)
    (fun i u hu => (effect_byteAt_cart i u ha).trans hu) h rfl

theorem step_aligned (hT : flagT s.flags = false) (hpc : s.pc.toNat % 4 = 0) (h : step s = .next t) :
    t.pc.toNat % 4 = 0 := by
  rw [step_arm hT] at h
  have hf : (armFetched s).pc.toNat % 4 = 0 := by
    simp only [armFetched, byteAddr, BitVec.toNat_ofNat]; omega
  exact exec_induction (P := fun u => u.pc.toNat % 4 = 0) h hf (effect_aligned (isa_decodeArm _) hf)

/-- Only the halves of selector 11111 decode to a BL low half. -/
theorem selector_of_rowName_blLo {h : Half} (hrow : rowName (decodeThumb h) = "T_BL_LO") :
    h.toNat / 2 ^ 11 = 0b11111 := by
  revert hrow
  fun_cases decodeThumb h
  case case5 hlo =>
    intro _
    have hsel := toNat_of_field_eq hlo
    rw [BitVec.toNat_ofNat] at hsel
    omega
  all_goals simp [rowName]

theorem step_even (hT : flagT s.flags = true) (hpc : s.pc.toNat % 2 = 0)
    (hlr : halfNat s s.pc / 2 ^ 11 = 0b11111 → s.lr.toNat % 2 = 0) (h : step s = .next t) : t.pc.toNat % 2 = 0 := by
  rw [step_thumb hT] at h
  have hf : (thumbFetched s).pc.toNat % 2 = 0 := by
    simp only [thumbFetched, byteAddr, BitVec.toNat_ofNat]; omega
  refine exec_induction (P := fun u => u.pc.toNat % 2 = 0) h hf (effect_even (isa_decodeThumb _) hf fun hrow => hlr ?_)
  rw [← toNat_ofNat_halfNat, selector_of_rowName_blLo hrow]

theorem exists_eq_cmp {i : Instr} (h : rowName i = "CMP") : ∃ c rn o, i = .cmp c rn o := by
  cases i
  case cmp c rn o => exact ⟨c, rn, o, rfl⟩
  all_goals simp [rowName] at h

/-- A step that changes the flags word executes a CMP. -/
theorem exists_cmp_of_flags_ne (h : step s = .next t) (hne : t.flags ≠ s.flags) :
    ∃ c rn o, s.fetch.1 = .cmp c rn o ∧ condPassed c s.flags = true := by
  have hflags : s.fetch.2.flags = s.flags := by
    obtain ⟨p, l, hfetch⟩ := s.fetch_snd
    rw [hfetch]
  rcases exec_cases h with ⟨hp, rfl⟩ | ⟨-, rfl⟩
  · have hcmp : rowName s.fetch.1 = "CMP" := by
      by_contra hcmp
      exact hne ((effect_flags _ _ hcmp).trans hflags)
    obtain ⟨c, rn, o, hi⟩ := exists_eq_cmp hcmp
    rw [passes_of_condOf (c := c) (by rw [hi]; rfl), hflags] at hp
    exact ⟨c, rn, o, hi, hp⟩
  · exact absurd hflags hne

/-- No fetch in Thumb answers a CMP. -/
theorem flagT_of_fetch_arm (h : s.fetch.1.isa = .arm) : flagT s.flags = false := by
  by_contra hT
  rw [fetch_eq_thumbFetched (Bool.eq_true_of_not_eq_false hT), isa_decodeThumb] at h
  cases h

end Step

end Sys2Proof.Machine

open Sys2Proof Sys2Proof.Machine Sys2Proof.Spec

/-- Settles O31: the fetch leaves the stored bytes, and every effect keeps them well-formed. -/
theorem stepKeepsStateWellFormed : Obligations.StepKeepsStateWellFormed := fun _ _ hs h => step_wf h hs

/-- Settles O33: the invariant is `T = 0` with a slot that is a multiple of 4. -/
theorem armPcStaysAligned : Obligations.ArmPcStaysAligned := by
  have hstep : ∀ s t : State, flagT s.flags = false ∧ s.pc.toNat % 4 = 0 → step s = .next t →
      flagT t.flags = false ∧ t.pc.toNat % 4 = 0 :=
    fun s t ⟨hT, hpc⟩ h => ⟨(step_flagT h).trans hT, step_aligned hT hpc h⟩
  exact ⟨by decide, fun s t hT hpc => hstep s t ⟨hT, hpc⟩, fun s t hT hpc hr => hr.induction hstep ⟨hT, hpc⟩⟩

/-- Settles O34: every Thumb effect adds an even number to an even slot, or to the staged `lr`. -/
theorem thumbPcStaysEven : Obligations.ThumbPcStaysEven :=
  fun _ _ hT hpc hlr h => ⟨(step_flagT h).trans hT, step_even hT hpc hlr h⟩

/-- Settles O36: CMP keeps bits 27..0, and nothing else writes the flags word. -/
theorem encodingAndModeNeverChange : Obligations.EncodingAndModeNeverChange := by
  intro s t hr
  have hlow : t.flags.extractLsb' 0 28 = s.flags.extractLsb' 0 28 :=
    hr.induction (Inv := fun u => u.flags.extractLsb' 0 28 = s.flags.extractLsb' 0 28)
      (fun _ _ hu h => (step_flags_low h).trans hu) rfl
  refine ⟨?_, flagT_eq_of_low hlow⟩
  simpa [BitVec.extractLsb'_toNat] using congrArg BitVec.toNat hlow

/-- Settles O40: the fetch's events, then those of the instruction in the state it executes in. -/
theorem eventsOfAStep : Obligations.EventsOfAStep := by
  refine fun s t h => ⟨fun hT => ?_, fun hT => ?_⟩
  · rw [exec_diagLog h, fetch_eq_armFetched hT]; rfl
  · rw [exec_diagLog h, fetch_eq_thumbFetched hT]; rfl

/-- Settles O41: each frame holds of the effect, and of the unchanged state where the condition fails. -/
theorem instructionsWriteOnlyWhatTheyName : Obligations.InstructionsWriteOnlyWhatTheyName := by
  refine fun i s t h => ⟨fun j hj hd => ?_, fun hw => exec_pc_of_not_writesPc hw h, fun hstr hstrb a => ?_,
    fun hcmp => exec_flags hcmp h, ?_⟩
  · exact exec_induction (P := fun u => u.readReg j = s.readReg j) h rfl (effect_readReg i s hj hd)
  · exact exec_induction (P := fun u => u.byteAt a = s.byteAt a) h rfl (effect_byteAt i s hstr hstrb a)
  · exact exec_induction h ⟨rfl, rfl, rfl, rfl⟩ (untouched_effect i s)

/-- Settles O35: a changed flags word means a CMP whose condition passed, and no Thumb half decodes to one. -/
theorem onlyCompareWritesFlags : Obligations.OnlyCompareWritesFlags := by
  intro s t h hne
  obtain ⟨c, rn, o, hi, hc⟩ := exists_cmp_of_flags_ne h hne
  exact ⟨flagT_of_fetch_arm (by rw [hi]; rfl), c, rn, o, hi, hc⟩

end

section
/-! O38 and O39: the log and bits 27..0 of the flags word are not read (10_state R30, R32, R40). A change of the state
that every operation commutes with is one that every instruction, and so every step, commutes with. -/

namespace Sys2Proof.Machine

open Sys2Proof.Spec

/-- A change of the state that no operation sees: each answers the same, and changes the state as before. -/
structure Unseen (g : State → State) : Prop where
  pc : ∀ s, (g s).pc = s.pc
  readReg : ∀ s i, (g s).readReg i = s.readReg i
  byteAt : ∀ s a, (g s).byteAt a = s.byteAt a
  condPassed : ∀ s c, condPassed c (g s).flags = condPassed c s.flags
  setPc : ∀ s v, (g s).setPc v = g (s.setPc v)
  setLr : ∀ s v, (g s).setLr v = g (s.setLr v)
  writeReg : ∀ s i v, (g s).writeReg i v = g (s.writeReg i v)
  append : ∀ s l, ({ g s with diagLog := (g s).diagLog ++ l } : State) = g { s with diagLog := s.diagLog ++ l }
  writeByte : ∀ s a b, (g s).writeByte a b = g (s.writeByte a b)
  compare : ∀ s a b, ({ g s with flags := compareFlags (g s).flags a b } : State)
    = g { s with flags := compareFlags s.flags a b }

namespace Unseen

variable {g : State → State} (hg : Unseen g) (s : State)
include hg

theorem operand2 (o : Operand2) : (g s).operand2 o = s.operand2 o := by
  cases o with
  | imm _ _ => rfl
  | reg rm => exact hg.readReg s rm

theorem transferUpd (x : Transfer) : (g s).transferUpd x = s.transferUpd x := by
  simp only [State.transferUpd, hg.readReg]

theorem transferAddr (x : Transfer) : (g s).transferAddr x = s.transferAddr x := by
  simp only [State.transferAddr, hg.readReg, hg.transferUpd]

theorem writeBack (x : Transfer) (v : Word) : (g s).writeBack x v = g (s.writeBack x v) := by
  simp only [State.writeBack_eq, hg.writeReg]
  split <;> rfl

theorem writeWord (a v : Word) : (g s).writeWord a v = g (s.writeWord a v) := by
  simp only [State.writeWord, hg.writeByte]

theorem readWord (a : Word) : (g s).readWord a = ((s.readWord a).1, g (s.readWord a).2) := by
  simp only [State.readWord_eq, hg.byteAt, hg.append]

theorem readByte (a : Word) : (g s).readByte a = ((s.readByte a).1, g (s.readByte a).2) := by
  simp only [State.readByte, hg.byteAt, hg.append]

theorem report (e : DiagEvent) : (g s).report e = g (s.report e) := hg.append s [e]

theorem passes (i : Instr) : passes i (g s) = passes i s := by
  simp only [Machine.passes, hg.condPassed]

/-- Every effect commutes with the change. -/
theorem effect (i : Instr) : effect i (g s) = g (effect i s) := by
  have hlr : (g s).lr = s.lr := hg.readReg s 14#4
  cases i
  case cmp c rn o => simp only [Machine.effect, hg.readReg, hg.operand2]; exact hg.compare s _ _
  all_goals
    simp only [Machine.effect, State.armTarget, State.armAddress, State.thumbAddress, hg.pc, hlr, hg.readReg, hg.byteAt,
      hg.operand2, hg.transferUpd, hg.transferAddr, hg.setPc, hg.setLr, hg.writeReg, hg.writeBack, hg.readWord,
      hg.readByte, hg.writeByte, hg.writeWord, hg.report]

/-- An instruction ends in the changed state. -/
theorem exec {i : Instr} {t : State} (h : exec i s = .next t) : exec i (g s) = .next (g t) := by
  rcases exec_cases h with ⟨hp, rfl⟩ | ⟨hp, rfl⟩
  · rw [exec_of_passes ((hg.passes s i).trans hp), hg.effect]
  · exact exec_of_not_passes ((hg.passes _ i).trans hp)

theorem armFetched : armFetched (g s) = g (armFetched s) := by
  show ({ g s with diagLog := (g s).diagLog ++ unmappedReads (g s).pc 4 } : State).setPc (byteAddr (g s).pc 4) = _
  rw [hg.append, hg.setPc, hg.pc]
  rfl

theorem thumbFetched : thumbFetched (g s) = g (thumbFetched s) := by
  show ({ g s with diagLog := (g s).diagLog ++ unmappedReads (g s).pc 2 } : State).setPc (byteAddr (g s).pc 2) = _
  rw [hg.append, hg.setPc, hg.pc]
  rfl

/-- A step from the changed state ends in the changed next state, where the change keeps `T`. -/
theorem step {t : State} (hT : flagT (g s).flags = flagT s.flags) (h : step s = .next t) :
    step (g s) = .next (g t) := by
  cases hs : flagT s.flags with
  | true =>
    rw [step_thumb hs] at h
    have hhalf : halfNat (g s) (g s).pc = halfNat s s.pc := by simp only [halfNat, hg.byteAt, hg.pc]
    rw [step_thumb (hT.trans hs), hhalf, hg.thumbFetched]
    exact hg.exec _ h
  | false =>
    rw [step_arm hs] at h
    have hword : wordNat (g s) (g s).pc = wordNat s s.pc := by simp only [wordNat, hg.byteAt, hg.pc]
    rw [step_arm (hT.trans hs), hword, hg.armFetched]
    exact hg.exec _ h

end Unseen

/-- The state with older events before its log. -/
def State.afterLog (l : List DiagEvent) (s : State) : State := { s with diagLog := l ++ s.diagLog }

theorem unseen_afterLog (l : List DiagEvent) : Unseen (State.afterLog l) where
  pc _ := rfl
  readReg _ _ := rfl
  byteAt _ _ := rfl
  condPassed _ _ := rfl
  setPc _ _ := rfl
  setLr _ _ := rfl
  writeReg s i v := by unfold State.writeReg; split_ifs <;> rfl
  append s l' := by simp [State.afterLog]
  writeByte s a b := by simp [State.writeByte_eq, State.afterLog]; rfl
  compare _ _ _ := rfl

/-! ### Bits 27..0 of the flags word -/

/-- The flags word with other bits 27..0. -/
def withLowFlags (flags : Word) (low : BitVec 28) : Word := (flags.extractLsb' 28 4 ++ low : BitVec (4 + 28))

theorem withLowFlags_high (flags : Word) (low : BitVec 28) :
    (withLowFlags flags low).extractLsb' 28 4 = flags.extractLsb' 28 4 := extractLsb'_append_high (m := 4) _ _

theorem withLowFlags_low (flags : Word) (low : BitVec 28) : (withLowFlags flags low).extractLsb' 0 28 = low :=
  extractLsb'_append_low (m := 4) _ _

theorem toNat_withLowFlags (flags : Word) (low : BitVec 28) :
    (withLowFlags flags low).toNat = flags.toNat / 2 ^ 28 * 2 ^ 28 + low.toNat := by
  have h := toNat_append_eq (flags.extractLsb' 28 4) low
  rw [BitVec.extractLsb'_toNat, Nat.shiftRight_eq_div_pow] at h
  exact h.trans (by omega)

/-- A word is its four high bits above its 28 low ones. -/
theorem withLowFlags_self {f g : Word} (h : f.toNat / 2 ^ 28 = g.toNat / 2 ^ 28) :
    withLowFlags g (f.extractLsb' 0 28) = f := by
  apply BitVec.eq_of_toNat_eq
  rw [toNat_withLowFlags, BitVec.extractLsb'_toNat, Nat.shiftRight_zero]
  omega

/-- A condition reads N, Z, C and V only, which are the word's top four bits (10_state R29). -/
theorem condPassed_congr {f g : Word} (h : f.extractLsb' 28 4 = g.extractLsb' 28 4) (c : Cond) :
    condPassed c f = condPassed c g := by
  have bit : ∀ k < 4, f.getLsbD (28 + k) = g.getLsbD (28 + k) := fun k hk => by
    simpa [BitVec.getLsbD_extractLsb', hk] using congrArg (·.getLsbD k) h
  have hn : flagN f = flagN g := bit 3 (by decide)
  have hz : flagZ f = flagZ g := bit 2 (by decide)
  have hc : flagC f = flagC g := bit 1 (by decide)
  have hv : flagV f = flagV g := bit 0 (by decide)
  simp only [condPassed, hn, hz, hc, hv]

theorem compareFlags_withLowFlags (flags a b : Word) (low : BitVec 28) :
    compareFlags (withLowFlags flags low) a b = withLowFlags (compareFlags flags a b) low := by
  unfold compareFlags setNZCV
  rw [withLowFlags_low, withLowFlags, extractLsb'_append_high (m := 4)]

/-- The state with other bits 27..0 in the flags word. -/
def State.withLow (low : BitVec 28) (s : State) : State := { s with flags := withLowFlags s.flags low }

theorem unseen_withLow (low : BitVec 28) : Unseen (State.withLow low) where
  pc _ := rfl
  readReg _ _ := rfl
  byteAt _ _ := rfl
  condPassed s c := condPassed_congr (withLowFlags_high _ _) c
  setPc _ _ := rfl
  setLr _ _ := rfl
  writeReg s i v := by unfold State.writeReg; split_ifs <;> rfl
  append _ _ := rfl
  writeByte s a b := by simp only [State.writeByte_eq]; rfl
  compare s a b := by simp only [State.withLow, compareFlags_withLowFlags]

end Sys2Proof.Machine

open Sys2Proof Sys2Proof.Machine

/-- Settles O38: a step is the step from the empty log, with the older events before its own. -/
theorem diagnosticLogIsWriteOnly : Obligations.DiagnosticLogIsWriteOnly := by
  intro s t l h
  obtain ⟨u, hu⟩ := exists_step_eq_next { s with diagLog := [] }
  have hlog : ∀ l', step { s with diagLog := l' } = .next (u.afterLog l') := fun l' => by
    have key := (unseen_afterLog l').step _ rfl hu
    rwa [State.afterLog, List.append_nil] at key
  obtain rfl : t = u.afterLog s.diagLog := step_deterministic (hlog s.diagLog) h
  exact ⟨u.diagLog, rfl, hlog l⟩

/-- Settles O39: replacing bits 27..0 commutes with every step that keeps `T`. -/
theorem modeFieldIsNotRead : Obligations.ModeFieldIsNotRead := by
  intro s t f hhigh hT h
  have hf : withLowFlags s.flags (f.extractLsb' 0 28) = f := withLowFlags_self hhigh
  have key := (unseen_withLow (f.extractLsb' 0 28)).step s (by rw [State.withLow, hf, hT]) h
  have hlow : withLowFlags t.flags (f.extractLsb' 0 28) =
      BitVec.ofNat 32 (2 ^ 28 * (t.flags.toNat / 2 ^ 28) + f.toNat % 2 ^ 28) := by
    apply BitVec.eq_of_toNat_eq
    rw [toNat_withLowFlags, BitVec.extractLsb'_toNat, Nat.shiftRight_zero, BitVec.toNat_ofNat]
    omega
  rwa [State.withLow, State.withLow, hf, hlow] at key

end

section
/-! The address map, the bytes behind it, and the images at reset and after a cartridge load (20_memory, 70_reset): O32,
O42, O43, O46, O47, O50, O52, O54 and O58. -/

open Sys2Proof Sys2Proof.Machine Sys2Proof.Spec

/-- Settles O43: each region gives its window, and the windows are disjoint and cover the address space. -/
theorem regionWindows : Obligations.RegionWindows := by
  intro a
  cases r : regionOf a
  case boot => have := region_boot r; simp only [reduceCtorEq, true_iff, false_iff]; omega
  case ewram => have := region_ewram r; simp only [reduceCtorEq, true_iff, false_iff]; omega
  case iwram => have := region_iwram r; simp only [reduceCtorEq, true_iff, false_iff]; omega
  case vram => have := region_vram r; simp only [reduceCtorEq, true_iff, false_iff]; omega
  case palette => have := region_palette r; simp only [reduceCtorEq, true_iff, false_iff]; omega
  case oam => have := region_oam r; simp only [reduceCtorEq, true_iff, false_iff]; omega
  case cart => have := region_cart r; simp only [reduceCtorEq, true_iff, false_iff]; omega
  case io => have := region_io r; simp only [reduceCtorEq, true_iff, false_iff]; omega
  case unmapped => have := region_unmapped r; simp only [reduceCtorEq, true_iff, false_iff]; omega

namespace Sys2Proof.Machine

/-! ### Windows (20_memory R63, R64) -/

section Windows

variable {a : Word}

theorem regionOf_boot (hlast : a.toNat ≤ 0x00FFFFFF) : regionOf a = .boot := by
  obtain ⟨hboot, -⟩ := regionWindows a
  exact hboot.mpr hlast

theorem regionOf_io (hfirst : 0x04000000 ≤ a.toNat) (hlast : a.toNat ≤ 0x040003FF) : regionOf a = .io := by
  obtain ⟨-, -, -, hio, -⟩ := regionWindows a
  exact hio.mpr ⟨hfirst, hlast⟩

theorem regionOf_cart (hfirst : 0x08000000 ≤ a.toNat) (hlast : a.toNat ≤ 0x09FFFFFF) : regionOf a = .cart := by
  obtain ⟨-, -, -, -, -, -, -, hcart, -⟩ := regionWindows a
  exact hcart.mpr ⟨hfirst, hlast⟩

/-- The windows of the buffers that are zero at reset. -/
theorem regionOf_ram (hfirst : 0x02000000 ≤ a.toNat)
    (h : a.toNat ≤ 0x03FFFFFF ∨ (0x05000000 ≤ a.toNat ∧ a.toNat ≤ 0x07FFFFFF)) :
    regionOf a = .ewram ∨ regionOf a = .iwram ∨ regionOf a = .palette ∨ regionOf a = .vram
      ∨ regionOf a = .oam := by
  obtain ⟨-, hewram, hiwram, -, hpalette, hvram, hoam, -⟩ := regionWindows a
  rw [hewram, hiwram, hpalette, hvram, hoam]
  omega

end Windows

/-! ### Bytes by region -/

section Bytes

variable (s : State) {a : Word} (b : Byte)

theorem State.byteAt_boot (h : regionOf a = .boot) : s.byteAt a = s.mem.get (a.toNat % 0x4000) := by
  simp [State.byteAt, h, (region_boot h).2.2]

theorem State.byteAt_io (h : regionOf a = .io) : s.byteAt a = s.ioReadByte := by
  simp [State.byteAt, h]

theorem State.byteAt_vram (h : regionOf a = .vram) : s.byteAt a =
    if a.toNat % 0x20000 < 0x18000 then s.mem.get (0x06000000 + a.toNat % 0x20000) else 0xFF#8 := by
  obtain ⟨-, hoff, hkey⟩ := region_vram h
  simp [State.byteAt, h, hoff, hkey, vramSize]

theorem State.byteAt_cart (h : regionOf a = .cart) : s.byteAt a =
    if a.toNat - 0x08000000 < s.cartLen then s.mem.get a.toNat else 0xFF#8 := by
  obtain ⟨-, hoff, hkey⟩ := region_cart h
  simp [State.byteAt, h, hoff, hkey]

/-- A byte of a region whose size is a power of two depends on the keys below the cartridge. -/
theorem State.byteAt_congr_powerRegion {s t : State} (hmem : ∀ k < 0x08000000, t.mem.get k = s.mem.get k)
    {base size : Nat} (h : powerRegion (regionOf a) = some (base, size)) : t.byteAt a = s.byteAt a := by
  obtain ⟨⟨k, -, rfl⟩, -, hend⟩ := powerRegion_layout h
  have hoff := Nat.mod_lt a.toNat (Nat.two_pow_pos k)
  rw [State.byteAt_powerRegion h, State.byteAt_powerRegion h, hmem _ (by omega)]

/-- A byte of any region but the cartridge depends on those keys and on `IO_READ_BYTE`. -/
theorem State.byteAt_congr_low {s t : State} (hmem : ∀ k < 0x08000000, t.mem.get k = s.mem.get k)
    (hio : t.ioReadByte = s.ioReadByte) (h : regionOf a ≠ .cart) : t.byteAt a = s.byteAt a := by
  cases r : regionOf a
  case cart => exact absurd r h
  case io => rw [State.byteAt_io _ r, State.byteAt_io _ r, hio]
  case unmapped => rw [State.byteAt_unmapped _ r, State.byteAt_unmapped _ r]
  case vram => rw [State.byteAt_vram _ r, State.byteAt_vram _ r, hmem _ (by omega)]
  all_goals exact State.byteAt_congr_powerRegion hmem (by rw [r]; rfl)

theorem readEvents_mapped (h : regionOf a ≠ .unmapped) : readEvents a = [] := if_neg h

theorem writeEvents_mapped (h : regionOf a ≠ .unmapped) : writeEvents a b = [] := if_neg h

/-- A mapped byte read changes nothing. -/
theorem State.readByte_mapped (h : regionOf a ≠ .unmapped) : s.readByte a = (s.byteAt a, s) := by
  rw [State.readByte, readEvents_mapped h, List.append_nil]

/-- A write that is dropped without an event changes nothing. -/
theorem State.writeByte_dropped (hw : s.writable a = false) (h : regionOf a ≠ .unmapped) : s.writeByte a b = s := by
  rw [State.writeByte_eq, hw, writeEvents_mapped b h, if_neg Bool.false_ne_true, List.append_nil]

/-- A written byte is read back. -/
theorem State.byteAt_writeByte_self (hw : s.writable a = true) : (s.writeByte a b).byteAt a = b := by
  rw [State.byteAt_writeByte, if_pos ⟨hw, (State.writable_key hw).1⟩]

theorem State.writeByte_diagLog_mapped (h : regionOf a ≠ .unmapped) : (s.writeByte a b).diagLog = s.diagLog := by
  rw [State.writeByte_diagLog, writeEvents_mapped b h, List.append_nil]

theorem State.writable_boot (h : regionOf a = .boot) : s.writable a = s.bootRomWritable := by
  simp [State.writable, h]

theorem State.writable_io (h : regionOf a = .io) : s.writable a = false := by
  simp [State.writable, h]

theorem State.writable_cart (h : regionOf a = .cart) : s.writable a = false := by
  simp [State.writable, h]

theorem State.writable_vram (h : regionOf a = .vram) : s.writable a = decide (a.toNat % 0x20000 < 0x18000) := by
  simp [State.writable, h, (region_vram h).2.1, vramSize]

end Bytes

/-! ### Images -/

/-- Reading after storing a list: the list's bytes, and whatever was there past its end. -/
theorem Memory.get_setList_getD (m : Memory) (k j : Nat) (bs : List Byte) :
    (m.setList k bs).get j = if k ≤ j then bs.getD (j - k) (m.get j) else m.get j := by
  rw [Memory.get_setList]
  by_cases hk : k ≤ j
  · by_cases hlen : j - k < bs.length
    · rw [dif_pos ⟨hk, hlen⟩, if_pos hk, List.getD_eq_getElem _ _ hlen]
    · rw [dif_neg fun h => hlen h.2, if_pos hk, List.getD_eq_default _ _ (not_lt.mp hlen)]
  · rw [dif_neg fun h => hk h.1, if_neg hk]

/-- Dropping other cells does not change what a key reads as. -/
theorem Memory.get_filter (m : Memory) (p : Host.Cell → Bool) {k : Nat} (hp : ∀ b, p (k, b) = true) :
    Memory.get (m.filter p) k = m.get k := by
  induction m with
  | nil => rfl
  | cons c rest ih =>
    obtain ⟨k', b⟩ := c
    by_cases hk : k = k'
    · subst hk; simp [hp, Memory.get]
    · by_cases hc : p (k', b) = true <;> simp [hc, Memory.get, hk, ih]

/-- The bytes at reset: the boot image, zeros, the cartridge image, 0xFF (10_state R42). -/
theorem get_resetMemory (p : LaunchParams) (k : Nat) : (resetMemory p).get k =
    if k < 0x4000 then p.bootImage.getD k 0x00#8
    else if k < 0x08000000 then 0x00#8
    else p.cartImage.getD (k - 0x08000000) 0xFF#8 := by
  have htake : (p.bootImage.take 0x4000).getD k (unlistedByte k) =
      if k < 0x4000 then p.bootImage.getD k (unlistedByte k) else unlistedByte k := by
    rw [List.getD_eq_getElem?_getD, List.getElem?_take]
    split <;> rfl
  rw [resetMemory, Memory.get_setList_getD, Memory.get_setList_getD, Memory.get_nil, Nat.sub_zero,
    if_pos (Nat.zero_le k), htake]
  unfold unlistedByte
  split_ifs <;> first | rfl | omega

/-- An image held from the cartridge's base on reads in the whole window, with 0xFF beyond it (20_memory R69). -/
theorem State.byteAt_cartImage {s : State} {image : List Byte} (hlen : s.cartLen = image.length)
    (hmem : ∀ k ≥ 0x08000000, s.mem.get k = image.getD (k - 0x08000000) 0xFF#8) {a : Word}
    (h : regionOf a = .cart) : s.byteAt a = image.getD (a.toNat - 0x08000000) 0xFF#8 := by
  rw [State.byteAt_cart _ h, hlen]
  split
  · exact hmem _ (region_cart h).1.1
  · next hout => rw [List.getD_eq_default _ _ (not_lt.mp hout)]

theorem resetWith_byteAt_cart (p : LaunchParams) {a : Word} (h : regionOf a = .cart) :
    (State.resetWith p).byteAt a = p.cartImage.getD (a.toNat - 0x08000000) 0xFF#8 :=
  State.byteAt_cartImage (s := State.resetWith p) rfl
    (fun k hk => (get_resetMemory p k).trans (by rw [if_neg (by omega), if_neg (by omega)])) h

/-- The keys from the end of the boot ROM to the cartridge are zero at reset. -/
theorem get_resetMemory_ram (p : LaunchParams) {k : Nat} (hfirst : 0x4000 ≤ k) (hend : k < 0x08000000) :
    (State.resetWith p).mem.get k = 0x00#8 :=
  (get_resetMemory p k).trans (by rw [if_neg (by omega), if_pos hend])

/-- A byte of a buffer that is no ROM is zero at reset. -/
theorem resetWith_byteAt_ram (p : LaunchParams) {a : Word} (h : regionOf a = .ewram ∨ regionOf a = .iwram
      ∨ regionOf a = .palette ∨ regionOf a = .vram ∨ regionOf a = .oam)
    (hvram : regionOf a = .vram → a.toNat % 0x20000 < 0x18000) : (State.resetWith p).byteAt a = 0x00#8 := by
  rcases h with r | r | r | r | r
  · rw [State.byteAt_powerRegion (base := 0x02000000) (size := 0x40000) (by rw [r]; rfl)]
    exact get_resetMemory_ram p (by omega) (by omega)
  · rw [State.byteAt_powerRegion (base := 0x03000000) (size := 0x8000) (by rw [r]; rfl)]
    exact get_resetMemory_ram p (by omega) (by omega)
  · rw [State.byteAt_powerRegion (base := 0x05000000) (size := 0x400) (by rw [r]; rfl)]
    exact get_resetMemory_ram p (by omega) (by omega)
  · rw [State.byteAt_vram _ r, if_pos (hvram r)]
    exact get_resetMemory_ram p (by omega) (by omega)
  · rw [State.byteAt_powerRegion (base := 0x07000000) (size := 0x400) (by rw [r]; rfl)]
    exact get_resetMemory_ram p (by omega) (by omega)

/-- The bytes after a load: those below the cartridge as before, the new image, 0xFF (70_reset R300). -/
theorem get_hostLoadCart (s : State) (image : List Byte) (k : Nat) : (s.hostLoadCart (some image)).mem.get k =
    if k < 0x08000000 then s.mem.get k else image.getD (k - 0x08000000) 0xFF#8 := by
  rw [State.hostLoadCart, Memory.get_setList_getD]
  by_cases hk : k < 0x08000000
  · rw [if_pos hk, if_neg (by omega), Memory.get_filter _ _ fun _ => decide_eq_true hk]
  · have hold : Memory.get (s.mem.filter fun cell => decide (cell.1 < 0x08000000)) k = 0xFF#8 := by
      rw [Memory.get_of_forall_ne, unlistedByte, if_neg hk]
      intro c hc hck
      exact hk (hck ▸ of_decide_eq_true (List.mem_filter.mp hc).2)
    rw [if_neg hk, if_pos (by omega), hold]

theorem hostLoadCart_byteAt_cart (s : State) (image : List Byte) {a : Word} (h : regionOf a = .cart) :
    (s.hostLoadCart (some image)).byteAt a = image.getD (a.toNat - 0x08000000) 0xFF#8 :=
  State.byteAt_cartImage rfl (fun k hk => (get_hostLoadCart s image k).trans (if_neg (by omega))) h

theorem hostLoadCart_byteAt_of_ne_cart (s : State) (image : List Byte) {a : Word} (h : regionOf a ≠ .cart) :
    (s.hostLoadCart (some image)).byteAt a = s.byteAt a :=
  State.byteAt_congr_low (fun k hk => (get_hostLoadCart s image k).trans (if_pos hk)) rfl h

/-- The default does not matter inside a list. -/
theorem getD_eq_getD_of_lt {l : List Byte} {n : Nat} (h : n < l.length) (d d' : Byte) : l.getD n d = l.getD n d' := by
  rw [List.getD_eq_getElem _ _ h, List.getD_eq_getElem _ _ h]

/-- Every key the reset memory lists is one of the boot ROM or of the cartridge image. -/
theorem resetWith_wf (p : LaunchParams) : (State.resetWith p).wf = true := by
  refine (State.wf_iff _).mpr ⟨resetMemory_wf p, fun c hc => ?_⟩
  have hkey : c.1 < 0x4000 ∨ (0x08000000 ≤ c.1 ∧ c.1 < 0x08000000 + p.cartImage.length) := by
    rcases Memory.mem_setList _ _ _ _ hc with hcart | hboot
    · exact .inr hcart
    · rcases Memory.mem_setList _ _ _ _ hboot with ⟨-, hlt⟩ | hnil
      · rw [List.length_take] at hlt; omega
      · cases hnil
  show backedKey p.cartImage.length c.1 = true
  simp only [backedKey, Bool.or_eq_true, Bool.and_eq_true, decide_eq_true_iff]
  omega

end Sys2Proof.Machine

/-- Settles O42: no write reaches the window, at reset and after a load it reads as the image. -/
theorem cartridgeIsReadOnly : Obligations.CartridgeIsReadOnly := by
  refine ⟨fun p => ⟨rfl, fun a hfirst hend hlen => ?_⟩, fun s t hr => ⟨?_, fun a hfirst hend => ?_⟩,
    fun s image => ⟨rfl, fun a hfirst hend hlen => ?_⟩⟩
  · rw [resetWith_byteAt_cart p (regionOf_cart hfirst (Nat.le_of_lt_succ hend)), getD_eq_getD_of_lt hlen]
  · exact hr.induction (Inv := fun u => u.cartLen = s.cartLen) (fun _ _ hu h => (step_cartLen h).trans hu) rfl
  · exact hr.induction (Inv := fun u => u.byteAt a = s.byteAt a)
      (fun _ _ hu h => (step_byteAt_cart h (regionOf_cart hfirst (Nat.le_of_lt_succ hend))).trans hu) rfl
  · rw [hostLoadCart_byteAt_cart s image (regionOf_cart hfirst (Nat.le_of_lt_succ hend)), getD_eq_getD_of_lt hlen]

/-- Settles O46: the byte, the writability and the events of each region. -/
theorem romAndVideoBytes : Obligations.RomAndVideoBytes := by
  intro s a b
  have mapped : ∀ {r : Region}, regionOf a = r → r ≠ .unmapped → regionOf a ≠ .unmapped := fun h hr => h ▸ hr
  refine ⟨fun h => ⟨s.byteAt_boot h, fun hw => ?_, fun hw => ⟨?_, ?_⟩⟩, fun h hin => ⟨?_, ?_, ?_⟩,
    fun h hout => ⟨?_, ?_⟩, fun h hin => ?_, fun h hout => ?_, fun h => ?_⟩
  · exact s.writeByte_dropped b ((s.writable_boot h).trans hw) (mapped h (by decide))
  · exact s.byteAt_writeByte_self b ((s.writable_boot h).trans hw)
  · exact s.writeByte_diagLog_mapped b (mapped h (by decide))
  · rw [s.byteAt_vram h, if_pos hin]
  · exact s.byteAt_writeByte_self b ((s.writable_vram h).trans (decide_eq_true hin))
  · exact s.writeByte_diagLog_mapped b (mapped h (by decide))
  · rw [s.readByte_mapped (mapped h (by decide)), s.byteAt_vram h, if_neg (not_lt.mpr hout)]
  · exact s.writeByte_dropped b ((s.writable_vram h).trans (decide_eq_false (not_lt.mpr hout))) (mapped h (by decide))
  · rw [s.readByte_mapped (mapped h (by decide)), s.byteAt_cart h, if_pos hin]
  · rw [s.readByte_mapped (mapped h (by decide)), s.byteAt_cart h, if_neg (not_lt.mpr hout)]
  · exact s.writeByte_dropped b (s.writable_cart h) (mapped h (by decide))

/-- Settles O47: the window is mapped and not writable. -/
theorem ioWindowHasNoState : Obligations.IoWindowHasNoState := by
  intro s a b hfirst hlast
  have h := regionOf_io hfirst hlast
  have hmapped : regionOf a ≠ .unmapped := by rw [h]; decide
  exact ⟨s.writeByte_dropped b (s.writable_io h) hmapped, by rw [s.readByte_mapped hmapped, s.byteAt_io h]⟩

/-- Settles O50: a half and a word are the numbers of their bytes. -/
theorem readsComposeLittleEndian : Obligations.ReadsComposeLittleEndian := by
  refine fun s a => ⟨rfl, (halfNat_eq s a).symm, (wordNat_eq s a).symm, ?_, ?_, ?_⟩
  · rw [unmappedReads_byte, State.readByte_snd]
  · rw [unmappedReads_half, State.readHalf_eq]
  · rw [unmappedReads_word, State.readWord_eq]

/-- Settles O52: the one index that is not read unmodified is 15. -/
theorem operandReadOfEveryIndex : Obligations.OperandReadOfEveryIndex := by
  refine fun s i => ⟨fun h => s.readReg_general i h, fun h => ?_, fun h => ?_, fun h => ?_⟩
  · obtain rfl : i = 13#4 := BitVec.eq_of_toNat_eq h
    exact s.readReg_sp
  · obtain rfl : i = 14#4 := BitVec.eq_of_toNat_eq h
    exact s.readReg_lr
  · obtain rfl : i = 15#4 := BitVec.eq_of_toNat_eq h
    rw [s.readReg_pc, BitVec.toNat_add]; rfl

/-- Settles O32: the images are stored inside the boot ROM and the cartridge. -/
theorem resetStateIsWellFormed : Obligations.ResetStateIsWellFormed := ⟨resetWith_wf launchDefaults, resetWith_wf⟩

/-- Settles O54: every field is a parameter, and every byte one of an image or its region's filler. -/
theorem resetStateFollowsParameters : Obligations.ResetStateFollowsParameters := by
  refine ⟨fun p => ⟨fun i h => (State.resetWith p).readReg_general i h, rfl, rfl, rfl, rfl, rfl, rfl, rfl, rfl, rfl,
    fun a hfirst hlast => ?_, fun a h hout => ?_, fun a hfirst h hvram => ?_, fun a hlast => ?_,
    fun a hfirst hlast => ?_⟩,
    by decide⟩
  · exact (State.resetWith p).byteAt_io (regionOf_io hfirst hlast)
  · rw [State.byteAt_vram _ h, if_neg (not_lt.mpr hout)]
  · exact resetWith_byteAt_ram p (regionOf_ram hfirst h) hvram
  · rw [State.byteAt_boot _ (regionOf_boot hlast)]
    exact (get_resetMemory p _).trans (if_pos (Nat.mod_lt _ (by decide)))
  · exact resetWith_byteAt_cart p (regionOf_cart hfirst hlast)

/-- Settles O58: the stored keys from the cartridge's base on are replaced, the others kept. -/
theorem cartridgeLoadReplacesTheImage : Obligations.CartridgeLoadReplacesTheImage :=
  ⟨fun _ => rfl, fun s image => ⟨fun _ h => hostLoadCart_byteAt_cart s image h,
    fun _ h => hostLoadCart_byteAt_of_ne_cart s image h, _, rfl⟩⟩

end

section
/-! What an instruction answers when its condition passes: O10 to O21 and O51 (41_arm_branch to
43_arm_data_processing, 20_memory R92). -/

namespace Sys2Proof.Machine

open Sys2Proof.Spec

/-! ### Registers after a write -/

/-- An indexed write, in the statements' terms (10_state R25). -/
theorem registerWritten_writeReg (s : State) (i : RegIdx) (v : Word) :
    RegisterWritten i v.toNat s (s.writeReg i v) := by
  refine ⟨fun j hj => ?_, ?_⟩
  · rw [State.readReg_writeReg _ _ _ _ hj]; split <;> rfl
  · rw [State.writeReg_pc, ← toNat_clearLowBits]; split <;> rfl

/-- The write-back is the last register write, so it wins over what came before it (42_arm_single_data_transfer
R183). -/
theorem storedRegisters_writeBack {s u : State} (hreg : SameRegisters s u) (hpc : u.pc = s.pc) (x : Transfer)
    (upd : Word) : StoredRegisters x upd s (u.writeBack x upd) := by
  refine ⟨fun j hj => ⟨fun hb => ?_, fun hb => ?_⟩, fun hb => ?_, fun hb => ?_⟩
  · rw [State.readReg_writeBack _ _ _ _ hj, if_pos ⟨(writesBack_iff x).mpr hb.1, hb.2⟩]
  · rw [State.readReg_writeBack_of_ne _ _ hj hb, hreg j hj]
  · rw [State.writeBack_pc, if_pos ⟨(writesBack_iff x).mpr hb.1, hb.2⟩, toNat_clearLowBits]
  · rw [State.writeBack_pc_of_ne _ _ fun hw hrn => hb ⟨hw, hrn⟩, hpc]

theorem loadedRegisters_writeBack {s u : State} (hreg : SameRegisters s u) (hpc : u.pc = s.pc) (x : Transfer)
    (data upd : Word) : LoadedRegisters x data upd s ((u.writeReg x.rd data).writeBack x upd) := by
  refine ⟨fun j hj => ⟨fun hb => ?_, fun hb hd => ?_, fun hb hd => ?_⟩, fun hb => ?_, fun hb hd => ?_, fun hb hd => ?_⟩
  · rw [State.readReg_writeBack _ _ _ _ hj, if_pos ⟨(writesBack_iff x).mpr hb.1, hb.2⟩]
  · rw [State.readReg_writeBack_of_ne _ _ hj hb, State.readReg_writeReg _ _ _ _ hj, if_pos hd]
  · rw [State.readReg_writeBack_of_ne _ _ hj hb, State.readReg_writeReg_of_ne _ _ hj hd, hreg j hj]
  · rw [State.writeBack_pc, if_pos ⟨(writesBack_iff x).mpr hb.1, hb.2⟩, toNat_clearLowBits]
  · rw [State.writeBack_pc_of_ne _ _ fun hw hrn => hb ⟨hw, hrn⟩, State.writeReg_pc, if_pos hd, toNat_clearLowBits]
  · rw [State.writeBack_pc_of_ne _ _ fun hw hrn => hb ⟨hw, hrn⟩, State.writeReg_pc_of_ne _ _ hd, hpc]

/-! ### Storing bytes in ascending order (20_memory R61, R76) -/

theorem stored_nil (a : Word) (s : State) : Stored a [] s s :=
  ⟨fun _ h => absurd h (Nat.not_lt_zero _), fun _ _ => rfl⟩

/-- Each writable byte of those stored is read back. -/
theorem stored_byteAt {a : Word} {bytes : List Byte} {s t : State} (h : Stored a bytes s t) {k : Nat}
    (hk : k < bytes.length) (hw : s.writable (byteAddr a k) = true) : t.byteAt (byteAddr a k) = bytes[k] :=
  (h.1 k hk hw).1

/-- Two of four consecutive bytes share no backing byte, wrapping at 2^32 included. -/
theorem not_sharesByte_within_word {a : Word} {i j : Nat} (hi : i < 4) (hj : j < 4) (hij : i ≠ j) :
    ¬ SharesByte (byteAddr a i) (byteAddr a j) := by
  rintro ⟨k, hik, hjk⟩
  rw [byteAddr_eq] at hik hjk
  have toNat_small : ∀ {n : Nat}, n < 4 → (BitVec.ofNat 32 n).toNat = n := fun h => by
    rw [BitVec.toNat_ofNat, Nat.mod_eq_of_lt (by omega)]
  refine backingKey_ne_within_word hik hjk (fun e => hij ?_) ?_ ?_ rfl
  · rw [← toNat_small hi, e, toNat_small hj]
  · rwa [toNat_small hi]
  · rwa [toNat_small hj]

/-- A write is seen at every address that shares the written byte. -/
theorem State.byteAt_writeByte_shares {s : State} {a a' : Word} (b : Byte) (hw : s.writable a = true)
    (h : SharesByte a' a) : (s.writeByte a b).byteAt a' = b := by
  rw [State.byteAt_writeByte, if_pos ⟨hw, (sharesByte_iff hw).mp h⟩]

theorem State.byteAt_writeByte_not_shares {s : State} {a a' : Word} (b : Byte)
    (h : s.writable a = true → ¬ SharesByte a' a) : (s.writeByte a b).byteAt a' = s.byteAt a' := by
  rw [State.byteAt_writeByte, if_neg fun ⟨hw, hk⟩ => h hw ((sharesByte_iff hw).mpr hk)]

theorem sharesByte_self {s : State} {a : Word} (hw : s.writable a = true) : SharesByte a a :=
  (sharesByte_iff hw).mpr (State.writable_key hw).1

/-- Storing one byte more after the others, within a word. -/
theorem stored_append {a : Word} {bytes : List Byte} {s u : State} (h : Stored a bytes s u)
    (hw : ∀ a', u.writable a' = s.writable a') (hlen : bytes.length < 4) (b : Byte) :
    Stored a (bytes ++ [b]) s (u.writeByte (byteAddr a bytes.length) b) := by
  obtain ⟨hbytes, hrest⟩ := h
  have hshared : ∀ k (hk : k < (bytes ++ [b]).length), s.writable (byteAddr a k) = true →
      ∀ a', SharesByte a' (byteAddr a k) →
        (u.writeByte (byteAddr a bytes.length) b).byteAt a' = (bytes ++ [b])[k] := by
    intro k hk hwk a' ha'
    rw [List.length_append, List.length_singleton] at hk
    rcases Nat.lt_succ_iff_lt_or_eq.mp hk with hlt | rfl
    · rw [State.byteAt_writeByte_not_shares, (hbytes k hlt hwk).2 a' ha', List.getElem_append_left]
      rintro - ⟨l, hl, hlast⟩
      obtain ⟨l', hl', hk'⟩ := ha'
      have e : l' = l := Option.some.inj (hl'.symm.trans hl)
      exact not_sharesByte_within_word (by omega) hlen hlt.ne ⟨l, e ▸ hk', hlast⟩
    · rw [State.byteAt_writeByte_shares b ((hw _).trans hwk) ha', List.getElem_concat_length rfl]
  refine ⟨fun k hk hwk => ⟨hshared k hk hwk _ (sharesByte_self hwk), hshared k hk hwk⟩, fun a' ha' => ?_⟩
  simp only [List.length_append, List.length_singleton] at ha'
  rw [State.byteAt_writeByte_not_shares b fun hwb => ha' _ (Nat.lt_succ_self _) ((hw _).symm.trans hwb),
    hrest a' fun k hk => ha' k (Nat.lt_succ_of_lt hk)]

theorem stored_writeByte (s : State) (a : Word) (b : Byte) : Stored a [b] s (s.writeByte a b) := by
  simpa [byteAddr_eq] using stored_append (stored_nil a s) (fun _ => rfl) (by simp) b

theorem stored_writeHalf (s : State) (a : Word) (v : Half) : Stored a (bytesOfHalf v) s (s.writeHalf a v) := by
  simpa [byteAddr_eq, bytesOfHalf, State.writeHalf] using
    stored_append (stored_writeByte s a (v.extractLsb' 0 8)) (fun _ => by simp) (by simp) (v.extractLsb' 8 8)

theorem stored_writeWord (s : State) (a v : Word) : Stored a (wordBytes v) s (s.writeWord a v) := by
  have h2 := stored_append (stored_writeByte s a (v.extractLsb' 0 8)) (fun _ => by simp) (by simp)
    (v.extractLsb' 8 8)
  have h3 := stored_append h2 (fun _ => by simp) (by simp) (v.extractLsb' 16 8)
  have h4 := stored_append h3 (fun _ => by simp) (by simp) (v.extractLsb' 24 8)
  simpa [byteAddr_eq, wordBytes, State.writeWord] using h4

theorem getElem_wordBytes (v : Word) {k : Nat} (hk : k < 4) : (wordBytes v)[k]'hk = v.extractLsb' (8 * k) 8 := by
  interval_cases k <;> rfl

/-- A word read answers the word whose bytes are at the four addresses. -/
theorem State.readWord_of_bytes {s : State} {a v : Word}
    (h : ∀ k < 4, s.byteAt (byteAddr a k) = v.extractLsb' (8 * k) 8) : (s.readWord a).1 = v := by
  have hbyte0 := h 0 (by decide)
  have hbyte1 := h 1 (by decide)
  have hbyte2 := h 2 (by decide)
  have hbyte3 := h 3 (by decide)
  simp only [byteAddr_eq, BitVec.add_zero] at hbyte0 hbyte1 hbyte2 hbyte3
  rw [State.readWord_eq, hbyte0, hbyte1, hbyte2, hbyte3, wordOfBytes_extract]

/-- What is stored does not look at registers. -/
theorem stored_writeBack {a : Word} {bytes : List Byte} {s u : State} (h : Stored a bytes s u) (x : Transfer)
    (v : Word) : Stored a bytes s (u.writeBack x v) := by
  simpa only [Stored, State.byteAt_writeBack] using h

/-! ### Branch offsets as integers (30_encoding R115, R125 to R128) -/

theorem armBranchOffset_eq (off24 : BitVec 24) : armBranchOffset off24 = BitVec.ofInt 32 (4 * off24.toInt) :=
  signExtend_shiftLeft_eq_ofInt off24 32 2

theorem thumbCondOffset_eq (off8 : Byte) : thumbCondOffset off8 = BitVec.ofInt 32 (2 * off8.toInt) :=
  signExtend_shiftLeft_eq_ofInt off8 32 1

theorem thumbBranchOffset_eq (off11 : BitVec 11) : thumbBranchOffset off11 = BitVec.ofInt 32 (2 * off11.toInt) :=
  signExtend_shiftLeft_eq_ofInt off11 32 1

/-- Twelve zeros below the field are a shift by 12. -/
theorem toInt_thumbHighOffset (hi11 : BitVec 11) : (thumbHighOffset hi11).toInt = 4096 * hi11.toInt := by
  rw [thumbHighOffset, BitVec.toInt_signExtend_of_le (by decide), BitVec.toInt_append]
  simp

theorem thumbHighOffset_eq (hi11 : BitVec 11) : thumbHighOffset hi11 = BitVec.ofInt 32 (4096 * hi11.toInt) := by
  rw [← toInt_thumbHighOffset, BitVec.ofInt_toInt]

theorem toNat_thumbLowOffset (lo11 : BitVec 11) : (thumbLowOffset lo11).toNat = 2 * lo11.toNat := by
  rw [thumbLowOffset, BitVec.toNat_shiftLeft, BitVec.toNat_setWidth, Nat.shiftLeft_eq]
  omega

/-- Setting bit 0 leaves the bits above it. -/
theorem toNat_or_one (v : Word) : (v ||| 1#32).toNat = 2 * (v.toNat / 2) + 1 := by
  have key : ∀ b < 2, 2 * (v.toNat / 2) + b = 2 * (v.toNat / 2) ||| b :=
    fun b hb => Nat.two_pow_add_eq_or_of_lt (i := 1) hb (v.toNat / 2)
  have hsplit : v.toNat = 2 * (v.toNat / 2) ||| v.toNat % 2 := by
    rw [← key _ (Nat.mod_lt _ (by decide)), Nat.div_add_mod]
  have hlow : v.toNat % 2 ||| 1 = 1 := by
    rcases Nat.mod_two_eq_zero_or_one v.toNat with h | h <;> rw [h] <;> rfl
  calc (v ||| 1#32).toNat = v.toNat ||| 1 := BitVec.toNat_or _ _
    _ = (2 * (v.toNat / 2) ||| v.toNat % 2) ||| 1 := by rw [← hsplit]
    _ = 2 * (v.toNat / 2) + 1 := by rw [Nat.or_assoc, hlow, ← key 1 (by decide)]

/-- A difference modulo 2^32, written without a negative number. -/
theorem toNat_sub_eq (a b : Word) : (a - b).toNat = (a.toNat + 2 ^ 32 - b.toNat) % 2 ^ 32 := by
  rw [BitVec.toNat_sub]
  omega

/-! ### The flags after CMP (43_arm_data_processing R207) -/

section Flags

variable (flags : Word) (n z c v : Bool)

/-- The word as the concatenation it is. -/
theorem getLsbD_setNZCV (k : Nat) : (setNZCV flags n z c v).getLsbD k =
    (BitVec.ofBool n ++ BitVec.ofBool z ++ BitVec.ofBool c ++ BitVec.ofBool v ++ flags.extractLsb' 0 28 :
      BitVec (1 + 1 + 1 + 1 + 28)).getLsbD k := rfl

theorem flagN_setNZCV : (setNZCV flags n z c v).getLsbD 31 = n := by
  rw [getLsbD_setNZCV]; simp only [BitVec.getLsbD_append]; simp

theorem flagZ_setNZCV : (setNZCV flags n z c v).getLsbD 30 = z := by
  rw [getLsbD_setNZCV]; simp only [BitVec.getLsbD_append]; simp

theorem flagC_setNZCV : (setNZCV flags n z c v).getLsbD 29 = c := by
  rw [getLsbD_setNZCV]; simp only [BitVec.getLsbD_append]; simp

theorem flagV_setNZCV : (setNZCV flags n z c v).getLsbD 28 = v := by
  rw [getLsbD_setNZCV]; simp only [BitVec.getLsbD_append]; simp

theorem getLsbD_setNZCV_low {k : Nat} (hk : k < 28) : (setNZCV flags n z c v).getLsbD k = flags.getLsbD k := by
  rw [getLsbD_setNZCV, BitVec.getLsbD_append, if_pos hk, BitVec.getLsbD_extractLsb', decide_eq_true hk, Bool.true_and,
    Nat.zero_add]

end Flags

section Compare

variable (flags a b : Word)

theorem compareFlags_n : (compareFlags flags a b).getLsbD 31
    = decide (2 ^ 31 ≤ (a.toNat + 2 ^ 32 - b.toNat) % 2 ^ 32) := by
  rw [compareFlags, flagN_setNZCV, ← toNat_sub_eq]
  exact (BitVec.msb_eq_getLsbD_last _).symm.trans (BitVec.msb_eq_decide _)

theorem compareFlags_z : (compareFlags flags a b).getLsbD 30 = decide (a.toNat = b.toNat) := by
  rw [compareFlags, flagZ_setNZCV, beq_eq_decide, decide_eq_decide, BitVec.toNat_inj]
  exact sub_eq_zero

theorem compareFlags_c : (compareFlags flags a b).getLsbD 29 = decide (b.toNat ≤ a.toNat) := flagC_setNZCV ..

theorem compareFlags_v : (compareFlags flags a b).getLsbD 28 = false := flagV_setNZCV ..

end Compare

end Sys2Proof.Machine

open Sys2Proof Sys2Proof.Machine Sys2Proof.Spec

/-- Settles O12: the offset is four times the signed field. -/
theorem branchResult : Obligations.BranchResult := by
  intro c off24 s hc
  rw [exec_b, if_pos hc, State.armTarget, armBranchOffset_eq]; rfl

/-- Settles O13: the link is the raw slot, which is also where the branch starts from. -/
theorem branchWithLinkResult : Obligations.BranchWithLinkResult := by
  intro c off24 s hc
  rw [exec_bl, if_pos hc, State.armTarget, armBranchOffset_eq]; rfl

/-- Settles O24: the offset is twice the signed field. -/
theorem thumbConditionalBranchResult : Obligations.ThumbConditionalBranchResult := by
  intro c off8 s hc
  rw [exec_tBcond, if_pos hc, thumbCondOffset_eq]; rfl

/-- Settles O25: the offset is twice the signed field. -/
theorem thumbBranchResult : Obligations.ThumbBranchResult := by
  intro off11 s
  rw [exec_tB, thumbBranchOffset_eq]; rfl

/-- Settles O26: the offset is 4096 times the signed field. -/
theorem thumbBranchLinkHighResult : Obligations.ThumbBranchLinkHighResult := by
  intro hi11 s
  rw [exec_tBlHi, thumbHighOffset_eq]; rfl

/-- Settles O27: the target is taken from the old `lr`, and bit 0 of the link is set. -/
theorem thumbBranchLinkLowResult : Obligations.ThumbBranchLinkLowResult := by
  intro lo11 s
  have hpc : s.lr + thumbLowOffset lo11 = BitVec.ofNat 32 (s.lr.toNat + 2 * lo11.toNat) := by
    apply BitVec.eq_of_toNat_eq
    rw [BitVec.toNat_add, toNat_thumbLowOffset, BitVec.toNat_ofNat]
  rw [exec_tBlLo, hpc, ← toNat_or_one, BitVec.ofNat_toNat, BitVec.setWidth_eq]; rfl

/-- Settles O14: a word read only appends events, and the write-back is the last register write. -/
theorem loadWordResult : Obligations.LoadWordResult := by
  intro c x s hc
  have hdata : (s.readWord (s.transferAddr x)).1 = BitVec.ofNat 32 (wordNat s (s.transferAddr x)) := by
    rw [wordNat_eq, BitVec.ofNat_toNat, BitVec.setWidth_eq]
  refine ⟨_, by rw [exec_ldr, if_pos hc], ?_⟩
  rw [hdata, State.readWord_eq, ← unmappedReads_word]
  refine ⟨loadedRegisters_writeBack (fun j hj => State.readReg_congr rfl rfl rfl hj) rfl x _ _, ?_⟩
  simp [SameMemory, Untouched]

/-- Settles O15: a byte read only appends events, and zero-extension keeps the number. -/
theorem loadByteResult : Obligations.LoadByteResult := by
  intro c x s hc
  refine ⟨_, by rw [exec_ldrb, if_pos hc], ?_⟩
  rw [State.readByte_snd, ← unmappedReads_byte, ← BitVec.ofNat_toNat]
  refine ⟨loadedRegisters_writeBack (fun j hj => State.readReg_congr rfl rfl rfl hj) rfl x _ _, ?_⟩
  simp [SameMemory, Untouched]

/-- Settles O16: four byte writes in ascending order, then the write-back. -/
theorem storeWordResult : Obligations.StoreWordResult := by
  intro c x s hc
  refine ⟨_, by rw [exec_str, if_pos hc], stored_writeBack (stored_writeWord s _ _) x _,
    storedRegisters_writeBack (fun j _ => State.readReg_writeWord _ _ _ j) (State.writeWord_pc _ _ _) x _, ?_⟩
  simp [Untouched, unmappedWrites_word]

/-- Settles O17: one byte write, then the write-back. -/
theorem storeByteResult : Obligations.StoreByteResult := by
  intro c x s hc
  have hbyte : (s.readReg x.rd).extractLsb' 0 8 = BitVec.ofNat 8 (s.readReg x.rd).toNat := rfl
  refine ⟨_, by rw [exec_strb, if_pos hc, hbyte], stored_writeBack (stored_writeByte s _ _) x _,
    storedRegisters_writeBack (fun j _ => State.readReg_writeByte _ _ _ j) (State.writeByte_pc _ _ _) x _, ?_⟩
  simp [Untouched, unmappedWrites_byte]

/-- Settles O18: one indexed write. -/
theorem moveResult : Obligations.MoveResult := by
  intro c rd o s hc
  refine ⟨_, by rw [exec_mov, if_pos hc], registerWritten_writeReg s rd _, ?_⟩
  simp [SameMemory, Untouched]

/-- Settles O19: one indexed write, of the sum modulo 2^32. -/
theorem addResult : Obligations.AddResult := by
  intro c rd rn o s hc
  refine ⟨_, by rw [exec_add, if_pos hc], ?_, ?_⟩
  · rw [← BitVec.toNat_add]; exact registerWritten_writeReg s rd _
  · simp [SameMemory, Untouched]

/-- Settles O20: one indexed write, of the difference modulo 2^32. -/
theorem subtractResult : Obligations.SubtractResult := by
  intro c rd rn o s hc
  refine ⟨_, by rw [exec_sub, if_pos hc], ?_, ?_⟩
  · rw [← toNat_sub_eq]; exact registerWritten_writeReg s rd _
  · simp [SameMemory, Untouched]

/-- Settles O21: one write of the flags word, bit by bit. -/
theorem compareResult : Obligations.CompareResult := by
  intro c rn o s hc
  refine ⟨{ s with flags := compareFlags s.flags (s.readReg rn) (s.operand2 o) }, by rw [exec_cmp, if_pos hc],
    compareFlags_n _ _ _, compareFlags_z _ _ _, compareFlags_c _ _ _, compareFlags_v _ _ _,
    fun k hk => getLsbD_setNZCV_low _ _ _ _ _ hk, fun j hj => State.readReg_congr rfl rfl rfl hj, rfl, rfl,
    fun _ => rfl, rfl, rfl, rfl, rfl⟩

/-- Settles O51: the bytes of a half or a word reach different backing bytes, so each stays as it was stored. -/
theorem writeThenReadGivesTheValue : Obligations.WriteThenReadGivesTheValue := by
  refine fun s a => ⟨fun b hw => s.byteAt_writeByte_self b hw, fun v h0 h1 => ?_, fun v hw => ?_⟩
  · have hstored := stored_writeHalf s a v
    have hbyte0 : (s.writeHalf a v).byteAt a = v.extractLsb' 0 8 := by
      simpa [byteAddr_eq, bytesOfHalf] using
        stored_byteAt hstored (k := 0) (by simp [bytesOfHalf]) (by simpa [byteAddr_eq] using h0)
    have hbyte1 : (s.writeHalf a v).byteAt (a + 1#32) = v.extractLsb' 8 8 := by
      simpa [byteAddr_eq, bytesOfHalf] using
        stored_byteAt hstored (k := 1) (by simp [bytesOfHalf]) h1
    rw [State.readHalf_eq, hbyte0, hbyte1, halfOfBytes_extract]
  · have hbyte : ∀ k < 4, (s.writeWord a v).byteAt (byteAddr a k) = v.extractLsb' (8 * k) 8 := fun k hk =>
      (stored_byteAt (stored_writeWord s a v) hk (hw k hk)).trans (getElem_wordBytes v hk)
    refine ⟨?_, fun k hk => ?_⟩
    · exact State.readWord_of_bytes hbyte
    · rw [hbyte k hk, BitVec.extractLsb'_toNat, Nat.shiftRight_eq_div_pow]

/-- Settles O10: the offset is the number its field holds. -/
theorem transferAddressing : Obligations.TransferAddressing := by
  have hoffset : ∀ o : Offset, (Offset.value o).toNat = offsetNat o ∧ offsetNat o < 2 ^ 32 := fun o => by
    cases o with
    | imm imm12 => simp only [Offset.value, offsetNat, BitVec.toNat_setWidth]; omega
    | zero => simp [Offset.value, offsetNat]
  intro s x
  obtain ⟨hval, hlt⟩ := hoffset x.offset
  refine ⟨fun h => ?_, fun h => ?_, fun h => ?_, fun h => ?_⟩
  · rw [State.transferUpd, h, BitVec.toNat_add, hval]
  · rw [State.transferUpd, h, toNat_sub_eq, hval]
  · rw [State.transferAddr, h]
  · unfold State.transferAddr; split
    · rfl
    · next h' => exact absurd h' h

end

section
/-! Masks and fields: O3 to O7, O9, O22, O23 and O28 (30_encoding R112 to R134, 40_condition_and_step R150). -/

namespace Sys2Proof

open Sys2Proof.Spec

/-! ### A mask comparison is a field comparison -/

section Masks

variable {n : Nat} {w d m v : BitVec n} {off len : Nat}

/-- A mask of one field compares that field. -/
theorem and_mask_eq_iff (off len : Nat) (hm : ∀ i < n, m.getLsbD i = decide (off ≤ i ∧ i < off + len))
    (hv : v &&& m = v) : w &&& m = v ↔ w.extractLsb' off len = v.extractLsb' off len := by
  constructor
  · rintro rfl
    ext i hi
    simp only [BitVec.getElem_extractLsb', BitVec.getLsbD_and]
    by_cases hn : off + i < n
    · simp [hm _ hn, hi]
    · simp [BitVec.getLsbD_of_ge _ _ (not_lt.mp hn)]
  · intro h
    rw [← hv]
    apply BitVec.eq_of_getLsbD_eq
    intro i hi
    rw [BitVec.getLsbD_and, BitVec.getLsbD_and, hm i hi]
    by_cases hin : off ≤ i ∧ i < off + len
    · have hbit := congrArg (·.getLsbD (i - off)) h
      have hlt : i - off < len := by omega
      simpa [BitVec.getLsbD_extractLsb', hlt, Nat.add_sub_cancel' hin.1, hin] using hbit
    · simp [hin]

/-- A mask in two parts compares both. -/
theorem and_mask_eq_iff_and (m₁ m₂ : BitVec n) (hm : m = m₁ ||| m₂) (hv : v &&& m = v) :
    w &&& m = v ↔ w &&& m₁ = v &&& m₁ ∧ w &&& m₂ = v &&& m₂ := by
  subst hm
  constructor
  · rintro rfl
    have absorb : ∀ p q : Bool, ((p || q) && p) = p ∧ ((p || q) && q) = q := by decide
    constructor <;> (ext i hi; simp only [BitVec.getElem_and, BitVec.getElem_or, Bool.and_assoc, absorb])
  · rintro ⟨h₁, h₂⟩
    rw [← hv, BitVec.and_or_distrib_left, h₁, h₂, ← BitVec.and_or_distrib_left]

/-- A field of one bit is that bit. -/
theorem extractLsb'_one (k : Nat) : w.extractLsb' k 1 = BitVec.ofBool (w.getLsbD k) := by
  ext i hi
  obtain rfl : i = 0 := by omega
  simp

/-- Flipping bits outside a field leaves the field. -/
theorem extractLsb'_xor_of_mask (hd : d &&& m = 0#n) (hm : m.extractLsb' off len = BitVec.allOnes len) :
    (w ^^^ d).extractLsb' off len = w.extractLsb' off len := by
  have h := congrArg (·.extractLsb' off len) hd
  simp only [BitVec.extractLsb'_and, hm, BitVec.and_allOnes] at h
  rw [BitVec.extractLsb'_xor, h]
  simp

theorem getLsbD_xor_of_mask {k : Nat} (hd : d &&& m = 0#n) (hm : m.getLsbD k = true) :
    (w ^^^ d).getLsbD k = w.getLsbD k := by
  have h := congrArg (·.getLsbD k) hd
  simp only [BitVec.getLsbD_and, hm, Bool.and_true, BitVec.getLsbD_zero] at h
  rw [BitVec.getLsbD_xor, h, Bool.xor_false]

end Masks

/-! ### The table's masks, on a word's body (30_encoding R112, R133) -/

section Arm

variable (w d : Word)

/-- The condition of a word: bits 31..28. -/
def condField : Cond := Cond.ofBits (w.extractLsb' 28 4)

/-- The bits below the condition. -/
def armBody : BitVec 28 := w.extractLsb' 0 28

theorem decodeArm_eq : decodeArm w = decodeArmBody (condField w) (armBody w) := rfl

/-- A word is its condition's code followed by its body. -/
theorem condField_append_armBody : ((condField w).toBits ++ armBody w : BitVec (4 + 28)) = w := by
  rw [condField, Cond.toBits_ofBits, armBody]
  exact (BitVec.extractLsb'_append_extractLsb'_eq_extractLsb' (by decide)).trans BitVec.extractLsb'_eq_self

/-- A field of the body is the word's field: the body starts at bit 0. -/
theorem extractLsb'_armBody {off len : Nat} (h : off + len ≤ 28) :
    (armBody w).extractLsb' off len = w.extractLsb' off len := by
  ext i hi
  simp only [armBody, BitVec.getElem_extractLsb', BitVec.getLsbD_extractLsb']
  rw [decide_eq_true (by omega), Bool.true_and, Nat.zero_add]

theorem getLsbD_armBody {k : Nat} (h : k < 28) : (armBody w).getLsbD k = w.getLsbD k := by
  rw [armBody, BitVec.getLsbD_extractLsb', decide_eq_true h, Bool.true_and, Nat.zero_add]

theorem branchClass_iff : w &&& 0x0E000000#32 = 0x0A000000#32 ↔ (armBody w).extractLsb' 25 3 = 0b101#3 := by
  rw [extractLsb'_armBody w (by decide)]
  exact and_mask_eq_iff 25 3 (by decide) (by decide)

theorem transferClass_iff : w &&& 0x0C000000#32 = 0x04000000#32 ↔ (armBody w).extractLsb' 26 2 = 0b01#2 := by
  rw [extractLsb'_armBody w (by decide)]
  exact and_mask_eq_iff 26 2 (by decide) (by decide)

theorem opcode_iff (v : Word) (hv : v &&& 0x01E00000#32 = v) :
    w &&& 0x01E00000#32 = v ↔ (armBody w).extractLsb' 21 4 = v.extractLsb' 21 4 := by
  rw [extractLsb'_armBody w (by decide)]
  exact and_mask_eq_iff 21 4 (by decide) hv

theorem bit_iff (k : Nat) (hk : k < 28) (m v : Word) (hm : ∀ i < 32, m.getLsbD i = decide (k ≤ i ∧ i < k + 1))
    (hv : v &&& m = v) : w &&& m = v ↔ (armBody w).getLsbD k = v.getLsbD k := by
  rw [getLsbD_armBody w hk, and_mask_eq_iff k 1 hm hv, extractLsb'_one, extractLsb'_one]
  exact ⟨fun h => by simpa using congrArg (·.getLsbD 0) h, fun h => by rw [h]⟩

/-- The rows of B and BL: the class and the link bit. -/
theorem branchRow_iff (v : Word) (hv : v &&& 0x0F000000#32 = v) (hclass : v &&& 0x0E000000#32 = 0x0A000000#32) :
    w &&& 0x0F000000#32 = v ↔ (armBody w).extractLsb' 25 3 = 0b101#3 ∧ (armBody w).getLsbD 24 = v.getLsbD 24 := by
  rw [and_mask_eq_iff_and 0x0E000000#32 0x01000000#32 (by decide) hv, hclass, branchClass_iff,
    bit_iff w 24 (by decide) _ _ (by decide) (by rw [BitVec.and_assoc, BitVec.and_self])]
  simp

/-- The rows of the transfers: the class, the byte bit and the load bit. -/
theorem transferRow_iff (v : Word) (hv : v &&& 0x0C500000#32 = v) (hclass : v &&& 0x0C000000#32 = 0x04000000#32) :
    w &&& 0x0C500000#32 = v ↔ (armBody w).extractLsb' 26 2 = 0b01#2 ∧ (armBody w).getLsbD 22 = v.getLsbD 22
      ∧ (armBody w).getLsbD 20 = v.getLsbD 20 := by
  rw [and_mask_eq_iff_and 0x0C000000#32 0x00500000#32 (by decide) hv, hclass, transferClass_iff,
    and_mask_eq_iff_and 0x00400000#32 0x00100000#32 (by decide) (by rw [BitVec.and_assoc, BitVec.and_self]),
    bit_iff w 22 (by decide) _ _ (by decide) (by rw [BitVec.and_assoc, BitVec.and_self]),
    bit_iff w 20 (by decide) _ _ (by decide) (by rw [BitVec.and_assoc, BitVec.and_self])]
  simp

theorem class3_iff : Class3 w ↔ (armBody w).extractLsb' 25 3 ≠ 0b101#3 ∧ (armBody w).extractLsb' 26 2 ≠ 0b01#2 := by
  rw [Class3, ne_eq, ne_eq, branchClass_iff, transferClass_iff]

theorem implementedOpcode_iff : ImplementedOpcode w ↔ (armBody w).extractLsb' 21 4 = 0xD#4
    ∨ (armBody w).extractLsb' 21 4 = 0x4#4 ∨ (armBody w).extractLsb' 21 4 = 0x2#4
    ∨ (armBody w).extractLsb' 21 4 = 0xA#4 := by
  rw [ImplementedOpcode, opcode_iff _ _ (by decide), opcode_iff _ _ (by decide), opcode_iff _ _ (by decide),
    opcode_iff _ _ (by decide)]
  rfl

end Arm

/-! ### Flipping ignored bits (30_encoding R132) -/

/-- A transfer's fields, but for the offset without `I` and `W` without `P`, decide it. -/
theorem decodeTransfer_congr {x y : BitVec 28} (hrn : x.extractLsb' 16 4 = y.extractLsb' 16 4)
    (hrd : x.extractLsb' 12 4 = y.extractLsb' 12 4) (hI : x.getLsbD 25 = y.getLsbD 25)
    (hoff : y.getLsbD 25 = true → x.extractLsb' 0 12 = y.extractLsb' 0 12) (hU : x.getLsbD 23 = y.getLsbD 23)
    (hP : x.getLsbD 24 = y.getLsbD 24) (hW : y.getLsbD 24 = true → x.getLsbD 21 = y.getLsbD 21) :
    decodeTransfer x = decodeTransfer y := by
  simp only [decodeTransfer, hrn, hrd, hI, hU, hP, Transfer.mk.injEq, true_and]
  constructor
  · split
    next h => rw [hoff h]
    next => rfl
  · split
    next h => rw [hW h]
    next => rfl

/-- Operand 2 is decided by the immediate's fields with `I`, by the register's without. -/
theorem decodeOperand2_congr {x y : BitVec 28} (hI : x.getLsbD 25 = y.getLsbD 25)
    (himm : y.getLsbD 25 = true → x.extractLsb' 8 4 = y.extractLsb' 8 4 ∧ x.extractLsb' 0 8 = y.extractLsb' 0 8)
    (hreg : y.getLsbD 25 = false → x.extractLsb' 0 4 = y.extractLsb' 0 4) : decodeOperand2 x = decodeOperand2 y := by
  rw [decodeOperand2, decodeOperand2, hI]
  split
  next h => rw [(himm h).1, (himm h).2]
  next h => rw [hreg (Bool.eq_false_of_not_eq_true h)]

/-- A body of the transfer class decodes by its load bit, its byte bit and its fields. -/
theorem decodeArmBody_transfer_congr {x y : BitVec 28} (c : Cond) (hx : x.extractLsb' 26 2 = 0b01#2)
    (hy : y.extractLsb' 26 2 = 0b01#2) (hL : x.getLsbD 20 = y.getLsbD 20) (hB : x.getLsbD 22 = y.getLsbD 22)
    (h : decodeTransfer x = decodeTransfer y) : decodeArmBody c x = decodeArmBody c y := by
  have hbranch : ∀ {z : BitVec 28}, z.extractLsb' 26 2 = 0b01#2 → z.extractLsb' 25 3 ≠ 0b101#3 := fun {z} hz => by
    have hn := toNat_of_field_eq hz
    exact field_ne_of_toNat _ _ _ _ (by simp only [BitVec.toNat_ofNat] at hn ⊢; omega)
  simp only [decodeArmBody, hbranch hx, hbranch hy, hx, hy, hL, hB, h, if_false, if_true]

/-- A data-processing body with an implemented opcode decodes by its opcode, by `Rn` but for MOV, by `Rd` but for CMP,
and by its operand 2. -/
theorem decodeArmBody_implemented_congr {x y : BitVec 28} (c : Cond)
    (hx : x.extractLsb' 25 3 ≠ 0b101#3 ∧ x.extractLsb' 26 2 ≠ 0b01#2)
    (hy : y.extractLsb' 25 3 ≠ 0b101#3 ∧ y.extractLsb' 26 2 ≠ 0b01#2)
    (hop : x.extractLsb' 21 4 = y.extractLsb' 21 4)
    (himpl : y.extractLsb' 21 4 = 0xD#4 ∨ y.extractLsb' 21 4 = 0x4#4 ∨ y.extractLsb' 21 4 = 0x2#4
      ∨ y.extractLsb' 21 4 = 0xA#4)
    (hrn : y.extractLsb' 21 4 ≠ 0xD#4 → x.extractLsb' 16 4 = y.extractLsb' 16 4)
    (hrd : y.extractLsb' 21 4 ≠ 0xA#4 → x.extractLsb' 12 4 = y.extractLsb' 12 4)
    (ho : decodeOperand2 x = decodeOperand2 y) : decodeArmBody c x = decodeArmBody c y := by
  simp only [decodeArmBody, hx.1, hx.2, hy.1, hy.2, hop, ho, if_false]
  rcases himpl with h | h | h | h
  · simp [h, hrd]
  · simp [h, hrn, hrd]
  · simp [h, hrn, hrd]
  · simp [h, hrn]

section Flip

variable {w d m : Word} (hd : d &&& m = 0#32)
include hd

theorem condField_flip (hm : m.extractLsb' 28 4 = BitVec.allOnes 4 := by decide) :
    condField (w ^^^ d) = condField w := by
  rw [condField, condField, extractLsb'_xor_of_mask hd hm]

theorem field_flip (off len : Nat) (h : off + len ≤ 28 := by decide)
    (hm : m.extractLsb' off len = BitVec.allOnes len := by decide) :
    (armBody (w ^^^ d)).extractLsb' off len = (armBody w).extractLsb' off len := by
  rw [extractLsb'_armBody _ h, extractLsb'_armBody _ h, extractLsb'_xor_of_mask hd hm]

theorem bit_flip (k : Nat) (h : k < 28 := by decide) (hm : m.getLsbD k = true := by decide) :
    (armBody (w ^^^ d)).getLsbD k = (armBody w).getLsbD k := by
  rw [getLsbD_armBody _ h, getLsbD_armBody _ h, getLsbD_xor_of_mask hd hm]

theorem class3_flip (h : Class3 w) (hm : m.extractLsb' 25 3 = BitVec.allOnes 3 := by decide)
    (hm' : m.extractLsb' 26 2 = BitVec.allOnes 2 := by decide) : Class3 (w ^^^ d) := by
  rw [class3_iff] at h ⊢
  rwa [field_flip hd 25 3 (by decide) hm, field_flip hd 26 2 (by decide) hm']

end Flip

/-! ### Thumb selectors -/

theorem selector_iff (h v : Half) (hv : v &&& 0xF800#16 = v) :
    h &&& 0xF800#16 = v ↔ h.extractLsb' 11 5 = v.extractLsb' 11 5 :=
  and_mask_eq_iff 11 5 (by decide) hv

theorem bcondSelector_iff (h : Half) : h &&& 0xF000#16 = 0xD000#16 ↔ h.extractLsb' 12 4 = 0b1101#4 :=
  and_mask_eq_iff 12 4 (by decide) (by decide)

end Sys2Proof

open Sys2Proof Sys2Proof.Machine Sys2Proof.Spec

/-- Settles O5: the bytes decode by computation. -/
theorem spelledWordsDecode : Obligations.SpelledWordsDecode := by
  unfold Obligations.SpelledWordsDecode
  decide

/-- Settles O6: a condition reads the word's top four bits, and for those the table has 256 entries. -/
theorem conditionTruthTable : Obligations.ConditionTruthTable := by
  have table : ∀ k x : BitVec 4, condPassed (Cond.ofBits k) (x ++ 0#28 : BitVec (4 + 28))
      = (conditionRows.getD k.toNat 0#16).getMsbD x.toNat := by decide
  intro k flags
  have hflags : flags.toNat / 2 ^ 28 = (flags.extractLsb' 28 4).toNat := by
    rw [BitVec.extractLsb'_toNat, Nat.shiftRight_eq_div_pow]
    omega
  rw [hflags, ← table]
  exact condPassed_congr (extractLsb'_append_high (m := 4) _ _).symm _

/-- Settles O3: each row's mask compares the fields that the decoder dispatches on. -/
theorem decoderFollowsOpcodeTable : Obligations.DecoderFollowsOpcodeTable := by
  refine ⟨fun w => ?_, fun h => ?_⟩
  · have hb := branchRow_iff w 0x0A000000#32 (by decide) (by decide)
    have hbl := branchRow_iff w 0x0B000000#32 (by decide) (by decide)
    have hldr := transferRow_iff w 0x04100000#32 (by decide) (by decide)
    have hldrb := transferRow_iff w 0x04500000#32 (by decide) (by decide)
    have hstr := transferRow_iff w 0x04000000#32 (by decide) (by decide)
    have hstrb := transferRow_iff w 0x04400000#32 (by decide) (by decide)
    have hmov := opcode_iff w 0x01A00000#32 (by decide)
    have hadd := opcode_iff w 0x00800000#32 (by decide)
    have hsub := opcode_iff w 0x00400000#32 (by decide)
    have hcmp := opcode_iff w 0x01400000#32 (by decide)
    rw [decodeArm_eq]
    simp only [armRows, firstRow, hb, hbl, hldr, hldrb, hstr, hstrb, hmov, hadd, hsub, hcmp]
    clear hb hbl hldr hldrb hstr hstrb hmov hadd hsub hcmp
    fun_cases decodeArmBody (condField w) (armBody w) <;> simp_all [rowName]
  · have hmov := selector_iff h 0x2000#16 (by decide)
    have hb := selector_iff h 0xE000#16 (by decide)
    have hhi := selector_iff h 0xF000#16 (by decide)
    have hlo := selector_iff h 0xF800#16 (by decide)
    simp only [thumbRows, firstRow, hmov, bcondSelector_iff, hb, hhi, hlo]
    clear hmov hb hhi hlo
    fun_cases decodeThumb h <;> simp_all [rowName]

/-- Settles O4: each clause keeps every field its format reads. -/
theorem ignoredBitsDoNotMatter : Obligations.IgnoredBitsDoNotMatter := by
  refine fun w d => ⟨fun hw hd => ?_, fun hw hd => ?_, fun hc hc' himpl hd => ?_, fun hc himpl hI hd => ?_,
    fun hc hop hd => ?_, fun hc hop hd => ?_⟩ <;> rw [decodeArm_eq, decodeArm_eq, condField_flip hd]
  · obtain ⟨hclass, hI⟩ := (and_mask_eq_iff_and 0x0C000000#32 0x02000000#32 (by decide) (by decide)).mp hw
    have hfield := (transferClass_iff w).mp hclass
    have hbit := (bit_iff w 25 (by decide) _ _ (by decide) (by decide)).mp hI
    exact decodeArmBody_transfer_congr _ ((field_flip hd 26 2).trans hfield) hfield (bit_flip hd 20) (bit_flip hd 22)
      (decodeTransfer_congr (field_flip hd 16 4) (field_flip hd 12 4) (bit_flip hd 25)
        (fun h => absurd (hbit.symm.trans h) (by decide)) (bit_flip hd 23) (bit_flip hd 24) fun _ => bit_flip hd 21)
  · obtain ⟨hclass, hP⟩ := (and_mask_eq_iff_and 0x0C000000#32 0x01000000#32 (by decide) (by decide)).mp hw
    have hfield := (transferClass_iff w).mp hclass
    have hbit := (bit_iff w 24 (by decide) _ _ (by decide) (by decide)).mp hP
    exact decodeArmBody_transfer_congr _ ((field_flip hd 26 2).trans hfield) hfield (bit_flip hd 20) (bit_flip hd 22)
      (decodeTransfer_congr (field_flip hd 16 4) (field_flip hd 12 4) (bit_flip hd 25) (fun _ => field_flip hd 0 12)
        (bit_flip hd 23) (bit_flip hd 24) fun h => absurd (hbit.symm.trans h) (by decide))
  · exact decodeArmBody_implemented_congr _ ((class3_iff _).mp hc') ((class3_iff _).mp hc) (field_flip hd 21 4)
      ((implementedOpcode_iff w).mp himpl) (fun _ => field_flip hd 16 4) (fun _ => field_flip hd 12 4)
      (decodeOperand2_congr (bit_flip hd 25) (fun _ => ⟨field_flip hd 8 4, field_flip hd 0 8⟩)
        fun _ => field_flip hd 0 4)
  · have hbit : (armBody w).getLsbD 25 = false := (bit_iff w 25 (by decide) _ _ (by decide) (by decide)).mp hI
    exact decodeArmBody_implemented_congr _ ((class3_iff _).mp (class3_flip hd hc)) ((class3_iff _).mp hc)
      (field_flip hd 21 4) ((implementedOpcode_iff w).mp himpl) (fun _ => field_flip hd 16 4)
      (fun _ => field_flip hd 12 4)
      (decodeOperand2_congr (bit_flip hd 25) (fun h => absurd (hbit.symm.trans h) (by decide))
        fun _ => field_flip hd 0 4)
  · have hmov : (armBody w).extractLsb' 21 4 = 0xD#4 := (opcode_iff w _ (by decide)).mp hop
    exact decodeArmBody_implemented_congr _ ((class3_iff _).mp (class3_flip hd hc)) ((class3_iff _).mp hc)
      (field_flip hd 21 4) (.inl hmov) (fun h => absurd hmov h) (fun _ => field_flip hd 12 4)
      (decodeOperand2_congr (bit_flip hd 25) (fun _ => ⟨field_flip hd 8 4, field_flip hd 0 8⟩)
        fun _ => field_flip hd 0 4)
  · have hcmp : (armBody w).extractLsb' 21 4 = 0xA#4 := (opcode_iff w _ (by decide)).mp hop
    exact decodeArmBody_implemented_congr _ ((class3_iff _).mp (class3_flip hd hc)) ((class3_iff _).mp hc)
      (field_flip hd 21 4) (.inr (.inr (.inr hcmp))) (fun _ => field_flip hd 16 4) (fun h => absurd hcmp h)
      (decodeOperand2_congr (bit_flip hd 25) (fun _ => ⟨field_flip hd 8 4, field_flip hd 0 8⟩)
        fun _ => field_flip hd 0 4)

/-- Settles O22: outside the two other classes and the four opcodes only the fall-through is left. -/
theorem armFallThroughReportsOnly : Obligations.ArmFallThroughReportsOnly := by
  intro w s hclass himpl hc
  obtain ⟨hbranch, htransfer⟩ := (class3_iff w).mp hclass
  rw [implementedOpcode_iff] at himpl
  push Not at himpl
  obtain ⟨hmov, hadd, hsub, hcmp⟩ := himpl
  have hdecode : decodeArm w = .armUnhandled (condField w) (armBody w) := by
    rw [decodeArm_eq]
    simp only [decodeArmBody, hbranch, htransfer, hmov, hadd, hsub, hcmp, if_false]
  refine ⟨⟨_, _, hdecode⟩, ?_⟩
  rw [hdecode, exec_armUnhandled, condField_append_armBody, condField, if_pos hc]
  rfl

/-- Settles O23: the selector's row comes first, and the move is one write of a register below 13. -/
theorem thumbMoveResult : Obligations.ThumbMoveResult := by
  intro h s hsel
  rw [selector_iff h _ (by decide)] at hsel
  have hfield8 : (h.extractLsb' 8 3).toNat = h.toNat / 2 ^ 8 % 8 := by
    rw [BitVec.extractLsb'_toNat, Nat.shiftRight_eq_div_pow]
  have hfield0 : (h.extractLsb' 0 8).toNat = h.toNat % 2 ^ 8 := by
    rw [BitVec.extractLsb'_toNat, Nat.shiftRight_zero]
  generalize hrd : h.extractLsb' 8 3 = rd at hfield8
  generalize himm : h.extractLsb' 0 8 = imm8 at hfield0
  have hdecode : decodeThumb h = .tMovImm rd imm8 := by
    rw [← hrd, ← himm]; exact if_pos hsel
  have hindex : (rd.setWidth 4 : RegIdx).toNat = rd.toNat := by rw [BitVec.toNat_setWidth]; omega
  have hwrite := s.writeReg_general (imm8.setWidth 32) (rd.setWidth 4) (by omega)
  refine ⟨rd, imm8, s.writeReg (rd.setWidth 4) (imm8.setWidth 32), hdecode, hfield8, hfield0,
    exec_tMovImm s rd imm8, ?_, hindex.trans hfield8, fun j hj hne => State.readReg_writeReg_of_ne _ _ hj hne, ?_⟩
  · rw [State.readReg_writeReg _ _ _ _ (lowReg_ne_pc rd), if_pos rfl, BitVec.toNat_setWidth]
    omega
  · rw [hwrite]
    exact ⟨rfl, rfl, rfl, rfl, rfl, fun _ => rfl, rfl, rfl, rfl, rfl⟩

/-- Settles O28: none of the five selectors is left. -/
theorem thumbFallThroughReportsOnly : Obligations.ThumbFallThroughReportsOnly := by
  intro h s hsel
  simp only [List.mem_cons, List.not_mem_nil, or_false, not_or] at hsel
  have ne : ∀ {off len : Nat} {v : BitVec len}, h.toNat / 2 ^ off % 2 ^ len ≠ v.toNat →
      (h.extractLsb' off len != v) = true := fun hv => bne_iff_ne.mpr (field_ne_of_toNat h _ _ _ hv)
  have hun : thumbUnhandled h = true := by
    simp only [thumbUnhandled, Bool.and_eq_true]
    refine ⟨⟨⟨⟨ne ?_, ne ?_⟩, ne ?_⟩, ne ?_⟩, ne ?_⟩ <;> simp only [BitVec.toNat_ofNat] <;> omega
  exact ⟨decodeThumb_unhandled h hun, exec_tUnhandled s h⟩

/-- Settles O9: the fields are read off the half's number, and a shift of a signed field is a multiple of it. -/
theorem thumbBranchImmediates : Obligations.ThumbBranchImmediates := by
  have toNat_small : ∀ {n : Nat}, n < 2 ^ 16 → (BitVec.ofNat 16 n).toNat = n := fun hn => by
    rw [BitVec.toNat_ofNat, Nat.mod_eq_of_lt hn]
  refine ⟨fun k v => ⟨decodeThumb_bcond (toNat_small (by omega)), ?_⟩,
    fun v => ⟨decodeThumb_b (toNat_small (by omega)), ?_⟩, by decide, by decide,
    fun v => ⟨decodeThumb_blHi (toNat_small (by omega)), ?_⟩,
    fun v => ⟨decodeThumb_blLo (toNat_small (by omega)), toNat_thumbLowOffset v, ?_⟩⟩
  · have hoff : (thumbCondOffset v).toInt = 2 * v.toInt := toInt_signExtend_shiftLeft v (by decide) (by decide)
    have hlow := v.le_toInt
    have hhigh := v.toInt_lt
    omega
  · have hoff : (thumbBranchOffset v).toInt = 2 * v.toInt := toInt_signExtend_shiftLeft v (by decide) (by decide)
    have hlow := v.le_toInt
    have hhigh := v.toInt_lt
    omega
  · have hoff := toInt_thumbHighOffset v
    have hlow := v.le_toInt
    have hhigh := v.toInt_lt
    omega
  · rw [toNat_thumbLowOffset]
    omega

/-- Settles O7: the two shifts are the rotation, and only CMP writes the flags. -/
theorem rotatedImmediateOperand : Obligations.RotatedImmediateOperand := by
  have hror : ∀ (v : Word) {n : Nat}, n < 32 → ror32 v n = v.rotateRight n := fun v n hn => by
    rw [BitVec.rotateRight_def, Nat.mod_eq_of_lt hn, ror32]
  have examples : rotatedImmediate 4#4 0x03#8 = 0x03000000#32 ∧ rotatedImmediate 1#4 0xFF#8 = 0xC000003F#32
      ∧ rotatedImmediate 15#4 0x01#8 = 0x00000004#32 := by decide
  refine ⟨fun s rot imm8 => ⟨hror _ (by omega), by omega, ?_⟩, fun _ => examples, fun s t c rd rn rot imm8 h => ?_⟩
  · have hzero : rotatedImmediate 0#4 imm8 = imm8.setWidth 32 := by
      rw [rotatedImmediate, ror32]
      have hleft : imm8.setWidth 32 <<< 32 = 0#32 := BitVec.shiftLeft_eq_zero (by decide)
      exact (congrArg₂ (· ||| ·) (BitVec.ushiftRight_zero _) hleft).trans BitVec.or_zero
    rw [State.operand2, hzero, BitVec.toNat_setWidth]
    omega
  · rcases h with h | h | h <;> exact exec_flags (by simp [rowName]) h

end

section
/-! The step as a whole: O11, O29, O55, O56 and O57 (40_condition_and_step R155, R156, 20_memory R90, 44_thumb R237). -/

namespace Sys2Proof.Machine

open Sys2Proof.Spec

/-! ### The bytes at the raw slot -/

section Fetched

variable (s : State) (a : Word)

/-- The word at an address is the one its four bytes make. -/
theorem ofNat_wordNat : BitVec.ofNat 32 (wordNat s a) = wordOfBytes (s.byteAt (byteAddr a 0)) (s.byteAt (byteAddr a 1))
    (s.byteAt (byteAddr a 2)) (s.byteAt (byteAddr a 3)) := by
  apply BitVec.eq_of_toNat_eq
  rw [toNat_ofNat_wordNat, toNat_wordOfBytes, wordNat]

/-- The half at an address is the one its two bytes make. -/
theorem ofNat_halfNat : BitVec.ofNat 16 (halfNat s a) =
    halfOfBytes (s.byteAt (byteAddr a 0)) (s.byteAt (byteAddr a 1)) := by
  apply BitVec.eq_of_toNat_eq
  rw [toNat_ofNat_halfNat, toNat_halfOfBytes, halfNat]

theorem byteAddr_byteAddr (j k : Nat) : byteAddr (byteAddr a j) k = byteAddr a (j + k) := by
  apply BitVec.eq_of_toNat_eq
  simp only [byteAddr, BitVec.toNat_ofNat]
  omega

/-- A writable byte is mapped. -/
theorem regionOf_of_writable {s : State} {a : Word} (h : s.writable a = true) : regionOf a ≠ .unmapped := fun hr => by
  rw [s.writable_unmapped hr] at h
  cases h

theorem unmappedReads_of_mapped {a : Word} {n : Nat} (h : ∀ k < n, regionOf (byteAddr a k) ≠ .unmapped) :
    unmappedReads a n = [] :=
  List.flatMap_eq_nil_iff.mpr fun k hk => if_neg (h k (List.mem_range.mp hk))

end Fetched

/-! ### The condition of a decoded word -/

theorem condOf_decodeArmBody (c : Cond) (body : BitVec 28) : condOf (decodeArmBody c body) = some c := by
  unfold decodeArmBody; split_ifs <;> rfl

/-- An ARM step at a word whose condition fails is the fetch alone. -/
theorem step_of_failed {s : State} (hT : flagT s.flags = false)
    (hc : condPassed (condField (BitVec.ofNat 32 (wordNat s s.pc))) s.flags = false) :
    step s = .next (armFetched s) := by
  rw [step_arm hT, decodeArm_eq]
  exact exec_of_not_passes ((passes_of_condOf (condOf_decodeArmBody _ _) _).trans hc)

/-! ### The two halves of a Thumb BL (44_thumb R235, R236) -/

section BranchLink

variable {s : State} (hT : flagT s.flags = true)
include hT

theorem step_blHi {hi11 : BitVec 11} (h : halfNat s s.pc = 0b11110 * 2 ^ 11 + hi11.toNat) :
    step s = .next { thumbFetched s with lr := byteAddr s.pc 2 + BitVec.ofInt 32 (4096 * hi11.toInt) } := by
  rw [step_thumb hT, decodeThumb_blHi ((toNat_ofNat_halfNat s s.pc).trans h)]
  exact thumbBranchLinkHighResult hi11 _

theorem step_blLo {lo11 : BitVec 11} (h : halfNat s s.pc = 0b11111 * 2 ^ 11 + lo11.toNat) :
    step s = .next { thumbFetched s with
      pc := BitVec.ofNat 32 (s.lr.toNat + 2 * lo11.toNat)
      lr := BitVec.ofNat 32 (2 * ((byteAddr s.pc 2).toNat / 2) + 1) } := by
  rw [step_thumb hT, decodeThumb_blLo ((toNat_ofNat_halfNat s s.pc).trans h)]
  exact thumbBranchLinkLowResult lo11 _

end BranchLink

end Sys2Proof.Machine

open Sys2Proof Sys2Proof.Machine Sys2Proof.Spec

/-- Settles O29: the fetched word or half is the one the bytes decode from. -/
theorem stepRunsTheDecodedInstruction : Obligations.StepRunsTheDecodedInstruction := by
  refine fun s i => ⟨fun hT h => ?_, fun hT h => ?_⟩
  · obtain ⟨rfl, -⟩ := Prod.mk.inj (Except.ok.inj h)
    rw [step_arm hT, ofNat_wordNat]
  · obtain ⟨rfl, -⟩ := Prod.mk.inj (Except.ok.inj h)
    rw [step_thumb hT, ofNat_halfNat]

/-- Settles O11: where the condition fails, the state after the fetch is the next state. -/
theorem failedConditionIsNoOp : Obligations.FailedConditionIsNoOp := by
  refine ⟨fun i c s hcond hc => exec_of_not_passes ((passes_of_condOf hcond s).trans hc), fun s k hT hk hc => ?_⟩
  have hfield : (BitVec.ofNat 32 (wordNat s s.pc)).extractLsb' 28 4 = k :=
    field_eq_of_toNat _ _ _ _ (by rw [toNat_ofNat_wordNat]; omega)
  exact step_of_failed hT (by rw [condField, hfield, hc])

/-- Settles O56: the branch goes back by the fetch's advance. -/
theorem selfBranchLeavesTheState : Obligations.SelfBranchLeavesTheState := by
  refine fun s => ⟨fun hT hw => ?_, fun hT hh => ?_⟩
  · have hdecode : decodeArm (BitVec.ofNat 32 0xEAFFFFFF) = .b .al 0xFFFFFF#24 := by decide
    have htarget : (armFetched s).armTarget 0xFFFFFF#24 = s.pc := by
      show byteAddr s.pc 4 + armBranchOffset 0xFFFFFF#24 = s.pc
      rw [byteAddr_eq, BitVec.add_assoc, show BitVec.ofNat 32 4 + armBranchOffset 0xFFFFFF#24 = 0#32 by decide,
        BitVec.add_zero]
    rw [step_arm hT, hw, hdecode, exec_b, if_pos (by rfl), htarget]
    rfl
  · have hdecode : decodeThumb (BitVec.ofNat 16 0xE7FF) = .tB 0x7FF#11 := by decide
    have htarget : (thumbFetched s).pc + thumbBranchOffset 0x7FF#11 = s.pc := by
      show byteAddr s.pc 2 + thumbBranchOffset 0x7FF#11 = s.pc
      rw [byteAddr_eq, BitVec.add_assoc, show BitVec.ofNat 32 2 + thumbBranchOffset 0x7FF#11 = 0#32 by decide,
        BitVec.add_zero]
    rw [step_thumb hT, hh, hdecode, exec_tB, htarget]
    rfl

/-- Settles O57: the low half adds its offset to the target the high half staged in `lr`. -/
theorem thumbBranchLinkPair : Obligations.ThumbBranchLinkPair := by
  intro s hi11 lo11 hT hhi hlo
  refine ⟨_, step_blHi hT hhi, ?_⟩
  rw [step_blLo (by exact hT) (by exact hlo)]
  have hpc : BitVec.ofNat 32 ((byteAddr s.pc 2 + BitVec.ofInt 32 (4096 * hi11.toInt)).toNat + 2 * lo11.toNat) =
      s.pc + 2#32 + BitVec.ofInt 32 (4096 * hi11.toInt + 2 * (lo11.toNat : Int)) := by
    rw [BitVec.ofNat_add, BitVec.ofNat_toNat, BitVec.setWidth_eq, byteAddr_eq, BitVec.ofInt_add, ← BitVec.add_assoc]
    exact congrArg (_ + ·) (BitVec.ofInt_natCast 32 (2 * lo11.toNat)).symm
  simp only [thumbFetched, hpc, byteAddr_byteAddr]

/-- Settles O55: the four stored bytes are the word the next fetch reads, and a writable byte raises no event. -/
theorem storeIsSeenByTheNextFetch : Obligations.StoreIsSeenByTheNextFetch := by
  intro s c x hT hfetch hc haddr hbase hw
  have hmapped : ∀ k < 4, (armFetched s).writable (byteAddr (byteAddr s.pc 4) k) = true := fun k hk => by
    rw [byteAddr_byteAddr]; exact hw k hk
  obtain ⟨t, ht, hstored, ⟨-, -, hpc⟩, hflags, -, -⟩ := storeWordResult c x (armFetched s) hc
  rw [haddr] at hstored
  have htpc : t.pc = byteAddr s.pc 4 := hpc fun h => hbase h.1 h.2
  have hword : wordNat t t.pc = ((armFetched s).readReg x.rd).toNat := by
    rw [wordNat_eq, htpc, State.readWord_of_bytes fun k hk =>
      (stored_byteAt hstored hk (hmapped k hk)).trans (getElem_wordBytes _ hk)]
  have hevents : unmappedReads t.pc 4 = [] :=
    unmappedReads_of_mapped fun k hk => regionOf_of_writable (htpc ▸ hmapped k hk)
  refine ⟨t, ?_, htpc, ?_⟩
  · rw [fetch_eq_armFetched hT] at hfetch
    exact (step_arm hT).trans ((congrArg (exec · _) hfetch).trans ht)
  · have hnext : armFetched t = { t with pc := byteAddr s.pc 8 } := by
      rw [armFetched, hevents, htpc, byteAddr_byteAddr, List.append_nil]
    rw [step_arm (hflags.symm ▸ hT), hword, BitVec.ofNat_toNat, BitVec.setWidth_eq, hnext]

end
